-- ==== Sys2Proof/Word.lean ====
section
/-! DEFINITION. The value types of the block. A numeral is a natural number in a range, not a bit
vector: the spec fixes no storage form for it (00_scope.md R10). Each type carries its range. -/

namespace Sys2Proof

/-- A BoundedNumeral, 0..999: every memory word, the accumulator and every I/O value (R6). -/
abbrev Word := Fin 1000

/-- An operand address, two decimal digits, 0..99 (R7). -/
abbrev Addr := Fin 100

/-- A program-counter value, 0..100; 100 is the end-of-memory marker (R8). -/
abbrev Pc := Fin 101

/-- A byte of the codec's buffer (R192). -/
abbrev Byte := BitVec 8

/-- A codec field, ten bits `f[9:0]` with bit 9 most significant (R191). -/
abbrev Field := BitVec 10

/-- A memory image: the fixed-length array of 100 words, index = address (R7, R28). -/
abbrev Image := Vector Word 100

end Sys2Proof
end

