-- ==== Sys2Proof/Config.lean ====
section
/-! DEFINITION. The parameters a model of the block takes (00_scope.md R11). `WORD_MAX`, `MOD`,
`MEM_WORDS`, `ADDR_MAX`, `PC_MAX` and `FIELD_BITS` are the ranges of the types of Word.lean;
`CODEC_MAX_BYTES` stands in Machine/Codec.lean; `CHAR_CODEC` and `DAT_OPERAND_OPTIONAL` are
arguments of Machine/Harness.lean and Machine/Assembler.lean. -/

namespace Sys2Proof

/-- `EXT_SCOPE` (R11, R181): where word 010 sets the extended-mode flag. -/
inductive ExtScope where
  /-- wherever it is fetched (the spec's choice, D6) -/
  | anywhere
  /-- only when fetched from address 0; elsewhere it halts (the alternative of D6) -/
  | firstOnly
deriving DecidableEq, Repr

/-- The build parameters, fixed when the block is built (R2, R11). They are arguments of the model:
every meaning reads them from the state, and nothing ever writes them (log entry 1). -/
structure Config where
  /-- `EXTENDED_BUILD` (R12) -/
  extendedBuild : Bool
  /-- `EXT_SCOPE` (R181) -/
  extScope : ExtScope
  /-- `OUTPUT_CLEARS_ACC` (R168) -/
  outputClearsAcc : Bool
deriving DecidableEq, Repr

/-- The values of R11, with the open `EXTENDED_BUILD` given as an argument. -/
def Config.ofBuild (extendedBuild : Bool) : Config :=
  { extendedBuild := extendedBuild, extScope := .anywhere, outputClearsAcc := false }

end Sys2Proof
end

