-- ==== Sys2Proof/Syntax.lean ====
section
/-! DEFINITION. The instructions: one constructor for each row of spec/opcode_table.json, and one
(`invalidGated`) for the words 911 and 912 where the condition of their rows fails (30_encoding.md
R64: such a word is invalid). DAT is no instruction the decoder selects (R60, R67). -/

namespace Sys2Proof

/-- An instruction word, decoded. Digits that the spec says are ignored are kept as fields, so that
every word can be read back from its instruction (DESIGN CHOICE, log entry 17). -/
inductive Instr where
  /-- HLT, words 000..099; the digits `x` are ignored (R180). -/
  | hlt (x : Addr)
  /-- EXT, word 010 of an extended build (R181). -/
  | ext
  /-- ADD, words 100..199 (R123). -/
  | add (a : Addr)
  /-- SUB, words 200..299 (R124). -/
  | sub (a : Addr)
  /-- STO (alias STA), words 300..399 (R141). -/
  | sto (a : Addr)
  /-- The invalid words 400..499; the digits `x` are ignored (R142, R182). -/
  | invalid4xx (x : Addr)
  /-- LDA, words 500..599 (R140). -/
  | lda (a : Addr)
  /-- BR (alias BRA), words 600..699 (R150). -/
  | br (a : Addr)
  /-- BRZ, words 700..799 (R151). -/
  | brz (a : Addr)
  /-- BRP, words 800..899 (R152). -/
  | brp (a : Addr)
  /-- The invalid word 900 (R163, R182). -/
  | invalid900
  /-- INP (alias IN), word 901 (R161). -/
  | inp
  /-- OUT, word 902 (R162). -/
  | out
  /-- The invalid words 903..910, with the subfunction digits (R163, R182). -/
  | invalid903 (f : Addr)
  /-- INA, word 911 in extended mode (R164). -/
  | ina
  /-- OTA, word 912 in extended mode (R165). -/
  | ota
  /-- The invalid words 913..999, with the subfunction digits (R163, R182). -/
  | invalid913 (f : Addr)
  /-- Words 911 and 912 where extended mode is off: invalid (R64, R163, R182). -/
  | invalidGated (f : Addr)
deriving DecidableEq, Repr

end Sys2Proof
end

