-- ==== Sys2Proof/Machine/State.lean ====
section
/-! DEFINITION. The whole state of the block (10_state.md R32) as plain data, the reasons a step can
stop, and the state right after reset. -/

namespace Sys2Proof.Machine

/-- The controller state: eight named values, with no numeric encoding (R25). -/
inductive CtrlState where
  | running
  | awaitingInput
  | awaitingOutput
  | awaitingCharInput
  | awaitingCharOutput
  | halted
  | reachedEnd
  | invalidInstruction
deriving DecidableEq, Repr

/-- Memory as (address, word) pairs in one canonical form: addresses strictly rising and below 100,
and no entry equal to what an unlisted address reads as (`Memory.wf`). The smallest unit is the
whole word: memory has no bytes (20_memory.md R44; DESIGN CHOICE of form, log entry 16). -/
abbrev Memory := List (Nat × Word)

/-- Everything the spec gives the machine (R32), and the build parameters as the model's own field. -/
structure State where
  /-- The build parameters (R11, R12): an argument of the model, never written (log entry 1). -/
  cfg : Config
  /-- `mem`, 100 words (R28). -/
  mem : Memory
  /-- `pc`, 0..100 (R23). -/
  pc : Pc
  /-- `acc`, 0..999 (R20). -/
  acc : Word
  /-- `neg`, the negative flag (R24). -/
  neg : Bool
  /-- `ext`, the extended-mode flag (R24); read it through `State.extFlag`. -/
  ext : Bool
  /-- `state`, the controller state (R25). -/
  state : CtrlState
deriving DecidableEq, Repr

/-- Why the machine stops with a fault: never. The block has no trap, no arithmetic raises and no
memory access can fault (60_exceptions.md R250, R252); an invalid word ends in the terminal STATE
InvalidInstruction, which a step answers as a next state (R182). -/
inductive Fault where
deriving DecidableEq, Repr

/-- Why an instruction is refused. No arm of `exec` raises it: every instruction has its meaning. -/
inductive Refusal where
  /-- Raised by an arm of `exec` whose instruction has no meaning yet (none has). Safe: the machine
  stops where the hardware goes on. -/
  | notModelled (mnemonic : String)
deriving DecidableEq, Repr

/-- Every register at its reset value (70_reset_and_hazards.md R272, R273), for given build
parameters and a given memory, which reset does not change (R29). -/
def State.atReset (cfg : Config) (mem : Memory) : State :=
  { cfg := cfg, mem := mem, pc := 0, acc := 0, neg := false, ext := false, state := .running }

/-- The machine right after reset, with nothing loaded: registers as R272 says. Memory lists nothing,
so every word reads as 0, as after a load of the all-zero image (DESIGN CHOICE, unsafe: log entry 2).
The build is the extended one (DESIGN CHOICE, unsafe: log entry 1); the other parameters are R11's. -/
def State.reset : State := State.atReset (Config.ofBuild true) []

end Sys2Proof.Machine
end

