-- ==== Sys2Proof/Machine/Flags.lean ====
section
/-! DEFINITION. The bounded-numeral unit (41_arithmetic.md): the range check, the adder, and the
subtracter with the one flag the block computes, the borrow. -/

namespace Sys2Proof.Machine

/-- `RangeError(n)` (R120, R251): the number that is no numeral. -/
structure RangeError where
  value : Nat
deriving DecidableEq, Repr

/-- `from(u8)`: always succeeds, since an 8-bit value is at most 255 (R120). -/
def numeralOfByte (b : Byte) : Word := ⟨b.toNat, by omega⟩

/-- `try_from(n)`: the range check at every boundary where a number enters the block (R120). -/
def tryFrom (n : Nat) : Except RangeError Word :=
  if h : n ≤ 999 then .ok ⟨n, by omega⟩ else .error ⟨n⟩

/-- The adder: modulo 1000, with no carry or overflow output (R121). -/
def add (a b : Word) : Word := ⟨(a.val + b.val) % 1000, by omega⟩

/-- The subtracter's result `(a - b + 1000) mod 1000` (R122); `a + 1000 - b` is that sum on naturals. -/
def subResult (a b : Word) : Word := ⟨(a.val + 1000 - b.val) % 1000, by omega⟩

/-- The subtracter's flag: the difference would be negative (R122). It is a borrow, not a sign bit of
the result (R125). -/
def borrow (a b : Word) : Bool := decide (a.val < b.val)

/-- The subtracter: result and flag, both from the operands before the instruction (R122, R124). -/
def subtract (a b : Word) : Word × Bool := (subResult a b, borrow a b)

/-- What BRZ tests (R151). -/
def isZero (a : Word) : Bool := decide (a.val = 0)

end Sys2Proof.Machine
end

