-- ==== Sys2Proof/WellFormed.lean ====
section
/-! DEFINITION. Which instructions the decode map of 30_encoding.md R64 can give, for a value of
`EXTENDED_BUILD` and of the extended-mode flag. Operand addresses are in range by their type. -/

namespace Sys2Proof

/-- Extended mode: the block is an extended build and the flag is set. It is what the INA and OTA
rows of R64 ask for; in a base build the flag reads as false at all times (R24). -/
def extendedMode (build ext : Bool) : Bool := build && ext

/-- The instruction stands in the decode map under `EXTENDED_BUILD = build` and `ext`. -/
def Instr.wf (build ext : Bool) : Instr → Bool
  | .hlt x => !(build && decide (x.val = 10))
  | .ext => build
  | .add _ => true
  | .sub _ => true
  | .sto _ => true
  | .invalid4xx _ => true
  | .lda _ => true
  | .br _ => true
  | .brz _ => true
  | .brp _ => true
  | .invalid900 => true
  | .inp => true
  | .out => true
  | .invalid903 f => decide (3 ≤ f.val) && decide (f.val ≤ 10)
  | .ina => extendedMode build ext
  | .ota => extendedMode build ext
  | .invalid913 f => decide (13 ≤ f.val)
  | .invalidGated f => (decide (f.val = 11) || decide (f.val = 12)) && !extendedMode build ext

end Sys2Proof
end

