-- ==== Sys2Proof/Decode.lean ====
section
/-! DEFINITION. The decoder and the encoder (30_encoding.md). An instruction word is split by decimal
division, never into bit fields (R61). The decoder is total on 0..999 (R65): a word that selects no
instruction gives one of the `invalid…` constructors. -/

namespace Sys2Proof

/-- `w.op`, the hundreds digit (R13, R61). -/
def opDigit (w : Word) : Nat := w.val / 100

/-- `w.addr`, the tens and units digits as an address (R13, R61). -/
def addrDigits (w : Word) : Addr := ⟨w.val % 100, by omega⟩

/-- Format S (R62, R163): the subfunction digits of a 9xx word. -/
def decodeIo (build ext : Bool) (f : Addr) : Instr :=
  if f.val = 0 then .invalid900
  else if f.val = 1 then .inp
  else if f.val = 2 then .out
  else if f.val ≤ 10 then .invalid903 f
  else if f.val = 11 then (if extendedMode build ext then .ina else .invalidGated f)
  else if f.val = 12 then (if extendedMode build ext then .ota else .invalidGated f)
  else .invalid913 f

/-- Format Z (R62): a 0xx word is EXT for 010 in an extended build, and HLT otherwise. -/
def decodeZero (build : Bool) (x : Addr) : Instr :=
  if build && decide (x.val = 10) then .ext else .hlt x

/-- The decoder function (R65), for `EXTENDED_BUILD = build` and the value of the extended-mode
flag. The last arm is the digit 4, the only one left (R62). -/
def decode (build ext : Bool) (w : Word) : Instr :=
  match opDigit w with
  | 0 => decodeZero build (addrDigits w)
  | 1 => .add (addrDigits w)
  | 2 => .sub (addrDigits w)
  | 3 => .sto (addrDigits w)
  | 5 => .lda (addrDigits w)
  | 6 => .br (addrDigits w)
  | 7 => .brz (addrDigits w)
  | 8 => .brp (addrDigits w)
  | 9 => decodeIo build ext (addrDigits w)
  | _ => .invalid4xx (addrDigits w)

/-- A natural number as an instruction word, if it is a numeral. -/
def wordOfNat (n : Nat) : Option Word :=
  if h : n < 1000 then some ⟨n, h⟩ else none

/-- The instruction the decoder reads from the word numbered `w` in spec/opcode_table.json, in an
extended build with extended mode on, where every row's condition holds (log entry 3). A number
over 999 is no word. The table is decimal and every instruction is one word (R61), so the width
`nbits` does not enter. -/
def decodeTableWord (nbits w : Nat) : Option Instr :=
  let _ := nbits
  (wordOfNat w).map (decode true true)

/-- `base + digits` for a base code that is a multiple of 100 (R69). -/
def wordOf (op : Fin 10) (digits : Addr) : Word := ⟨100 * op.val + digits.val, by omega⟩

/-- The encoder (R69): base code plus operand. Ignored digits are put back as they were read; the
canonical HLT is `hlt 0`, word 000 (R67, R70). -/
def encode : Instr → Word
  | .hlt x => wordOf 0 x
  | .ext => wordOf 0 10
  | .add a => wordOf 1 a
  | .sub a => wordOf 2 a
  | .sto a => wordOf 3 a
  | .invalid4xx x => wordOf 4 x
  | .lda a => wordOf 5 a
  | .br a => wordOf 6 a
  | .brz a => wordOf 7 a
  | .brp a => wordOf 8 a
  | .invalid900 => wordOf 9 0
  | .inp => wordOf 9 1
  | .out => wordOf 9 2
  | .invalid903 f => wordOf 9 f
  | .ina => wordOf 9 11
  | .ota => wordOf 9 12
  | .invalid913 f => wordOf 9 f
  | .invalidGated f => wordOf 9 f

end Sys2Proof
end

