-- ==== Sys2Proof/Machine/Ops.lean ====
section
/-! DEFINITION. The named operations over memory and registers: the address decoder, the fetch, the
register writes, and entering a controller state. The block has no trap entry and no trap return
(60_exceptions.md R250, R256, R257); its abnormal outcome is `State.enterInvalid`, and the only ways
out of a terminal state are reset and load (Machine/HostCommands.lean). -/

namespace Sys2Proof.Machine

/-! ### Memory -/

/-- What an address that is not listed reads as (DESIGN CHOICE, unsafe: log entry 2). -/
def Memory.unlisted : Word := 0

/-- The canonical form: addresses strictly rising, all of them existing (R7, R47), and no entry that
an unlisted address would read as anyway. -/
def Memory.wf (m : Memory) : Bool :=
  decide (m.Pairwise fun c d => c.1 < d.1) &&
    m.all fun c => decide (c.1 < 100) && decide (c.2 ≠ Memory.unlisted)

/-- The word listed at address number `a`, or the unlisted word. -/
def Memory.lookup : Memory → Nat → Word
  | [], _ => Memory.unlisted
  | (k, v) :: m, a => if k = a then v else Memory.lookup m a

/-- `MemRead(a, 1)`: the read side of the address decoder selects `mem[a]` (R14, R41). -/
def Memory.read (m : Memory) (a : Addr) : Word := m.lookup a.val

/-- Put the cell `(a, v)` in its place among rising addresses. -/
def Memory.insertCell (a : Nat) (v : Word) : Memory → Memory
  | [] => [(a, v)]
  | c :: m => if a < c.1 then (a, v) :: c :: m else c :: Memory.insertCell a v m

/-- `MemWrite(a, 1, v)`: the write side of the address decoder replaces the whole word `mem[a]`
(R14, R41, R46), keeping the canonical form. -/
def Memory.write (m : Memory) (a : Addr) (v : Word) : Memory :=
  let rest := m.filter fun c => decide (c.1 ≠ a.val)
  if v = Memory.unlisted then rest else Memory.insertCell a.val v rest

/-- The memory that holds the image (R223). -/
def Memory.ofImage (img : Image) : Memory :=
  (List.finRange 100).filterMap fun a =>
    if img.get a = Memory.unlisted then none else some (a.val, img.get a)

/-- The current 100 words (R224). -/
def Memory.toImage (m : Memory) : Image := Vector.ofFn m.read

/-! ### Registers -/

/-- The extended-mode flag as it is read: false at all times in a base build (R12, R24;
DEDUCED, log entry 15). -/
def State.extFlag (s : State) : Bool := s.cfg.extendedBuild && s.ext

/-- `acc <- v`. -/
def State.setAcc (s : State) (v : Word) : State := { s with acc := v }

/-- `pc <- target`. -/
def State.setPc (s : State) (p : Pc) : State := { s with pc := p }

/-- `neg <- b`. -/
def State.setNeg (s : State) (b : Bool) : State := { s with neg := b }

/-- `ext <- b`. -/
def State.setExt (s : State) (b : Bool) : State := { s with ext := b }

/-- `MemWrite(a, 1, v)` on the machine. -/
def State.setWord (s : State) (a : Addr) (v : Word) : State := { s with mem := s.mem.write a v }

/-! ### The controller -/

/-- `enter S`: `state <- S` (R14). -/
def State.enter (s : State) (c : CtrlState) : State := { s with state := c }

/-- The invalid-word path (R182, R256), shared by every invalid encoding: it enters the terminal
state, saves nothing, changes no mode and sends control nowhere. The word stays at `pc - 1`. -/
def State.enterInvalid (s : State) : State := s.enter .invalidInstruction

/-- The address of the next word, where there is one: at `pc = 100` the address decoder is not used
(R42, R101). -/
def State.fetchAddr (s : State) : Option Addr :=
  if h : s.pc.val < 100 then some ⟨s.pc.val, h⟩ else none

/-- `pc <- pc + 1` after a fetch from `a`: a plain increment to 1..100, which never wraps (R126). -/
def nextPc (a : Addr) : Pc := ⟨a.val + 1, by omega⟩

/-- Fetch and increment (R102): the word at `pc`, and the state with `pc` moved past it, whatever
the word decodes to. `none` at `pc = 100`. -/
def State.fetch (s : State) : Option (Word × State) :=
  s.fetchAddr.map fun a => (s.mem.read a, s.setPc (nextPc a))

/-- The instruction the controller decodes from a fetched word (R103): by the build and by the value
of `ext` before the step. -/
def State.decodeWord (s : State) (w : Word) : Instr := decode s.cfg.extendedBuild s.extFlag w

/-- Whether the executing word was fetched from address 0: `a = pc - 1` after the increment (R181). -/
def State.fetchedAtZero (s : State) : Bool := decide (s.pc.val = 1)

/-- Put the word `w` where the next fetch reads it, and let the very next step run it as
`decodeTableWord` reads it (log entry 3): the controller Running, `pc` on an address (0 if it stood at
the end of memory), and for 010, 911 and 912 the conditions of their rows of R64 (an extended build;
for 911 and 912 the extended-mode flag). Nothing else changes. -/
def State.placeWord (s : State) (w : Word) : State :=
  let a : Addr := s.fetchAddr.getD 0
  let gated := decide (w.val = 911) || decide (w.val = 912)
  { s with
    mem := s.mem.write a w
    pc := a.castSucc
    state := .running
    cfg := if gated || decide (w.val = 10) then { s.cfg with extendedBuild := true } else s.cfg
    ext := s.ext || gated }

end Sys2Proof.Machine
end

