-- ==== Sys2Proof/Machine/Operands.lean ====
section
/-! DEFINITION. The operand forms. There is one: the absolute address `w.addr`, unsigned, not scaled,
extended or added to any base (30_encoding.md R63). -/

namespace Sys2Proof.Machine

/-- The operand read by ADD, SUB and LDA: one whole word at the direct address (R43, R46). -/
def State.operand (s : State) (a : Addr) : Word := s.mem.read a

/-- A branch target: absolute, 0..99 (43_branch.md). -/
def branchTarget (a : Addr) : Pc := a.castSucc

/-- A taken branch overwrites `pc` absolutely (R150). -/
def State.branchTo (s : State) (a : Addr) : State := s.setPc (branchTarget a)

end Sys2Proof.Machine
end

