-- ==== Sys2Proof/Machine/Arithmetic.lean ====
section
/-! DEFINITION. ADD and SUB (41_arithmetic.md). -/

namespace Sys2Proof.Machine

/-- ADD (R123): `acc <- acc +1000 MemRead(addr, 1)`; no flag is written. -/
def execAdd (a : Addr) (s : State) : Host.Outcome State Fault Refusal :=
  .next (s.setAcc (add s.acc (s.operand a)))

/-- SUB (R124): `neg` gets the borrow and `acc` the result, both from the values before. -/
def execSub (a : Addr) (s : State) : Host.Outcome State Fault Refusal :=
  let r := subtract s.acc (s.operand a)
  .next ((s.setAcc r.1).setNeg r.2)

end Sys2Proof.Machine
end

