-- ==== Sys2Proof/Machine/Branch.lean ====
section
/-! DEFINITION. BR, BRZ and BRP (43_branch.md). `pc` already holds the fetched address plus one; a
branch not taken leaves it. -/

namespace Sys2Proof.Machine

/-- BR (R150). -/
def execBr (a : Addr) (s : State) : Host.Outcome State Fault Refusal :=
  .next (s.branchTo a)

/-- BRZ (R151): taken if `acc` is 0; `neg` is not read. -/
def execBrz (a : Addr) (s : State) : Host.Outcome State Fault Refusal :=
  .next (if isZero s.acc then s.branchTo a else s)

/-- BRP (R152): taken if `neg` is false; the flag is not cleared and `acc` is not read. -/
def execBrp (a : Addr) (s : State) : Host.Outcome State Fault Refusal :=
  .next (if s.neg then s else s.branchTo a)

end Sys2Proof.Machine
end

