-- ==== Sys2Proof/Machine/InputOutput.lean ====
section
/-! DEFINITION. INP, OUT, INA and OTA (44_io.md). Each suspends the controller; the host's command
completes it (Machine/HostCommands.lean). -/

namespace Sys2Proof.Machine

/-- INP (R161): `enter AwaitingInput`; `acc` is written later, by `input(v)`. -/
def execInp (s : State) : Host.Outcome State Fault Refusal :=
  .next (s.enter .awaitingInput)

/-- OUT (R162): `enter AwaitingOutput`; `output()` then reads `acc`. -/
def execOut (s : State) : Host.Outcome State Fault Refusal :=
  .next (s.enter .awaitingOutput)

/-- INA (R164): `enter AwaitingCharInput`. The word decodes as INA in extended mode only; executed
outside it, the instruction is invalid (R163, R164's Exceptions, R182; DEDUCED, log entry 14). -/
def execIna (s : State) : Host.Outcome State Fault Refusal :=
  .next (if s.extFlag then s.enter .awaitingCharInput else s.enterInvalid)

/-- OTA (R165): `enter AwaitingCharOutput`, in extended mode; invalid outside it, as for INA. -/
def execOta (s : State) : Host.Outcome State Fault Refusal :=
  .next (if s.extFlag then s.enter .awaitingCharOutput else s.enterInvalid)

end Sys2Proof.Machine
end

