-- ==== Sys2Proof/Machine/LoadStore.lean ====
section
/-! DEFINITION. LDA and STO (42_load_store.md). -/

namespace Sys2Proof.Machine

/-- LDA (R140): `acc <- MemRead(addr, 1)`; no flag is written. -/
def execLda (a : Addr) (s : State) : Host.Outcome State Fault Refusal :=
  .next (s.setAcc (s.operand a))

/-- STO (R141): `MemWrite(addr, 1, acc)`; every address is writable, the program's own too. -/
def execSto (a : Addr) (s : State) : Host.Outcome State Fault Refusal :=
  .next (s.setWord a s.acc)

end Sys2Proof.Machine
end

