-- ==== Sys2Proof/Machine/System.lean ====
section
/-! DEFINITION. HLT, EXT and the invalid words (45_system.md). Each invalid encoding has a meaning of
its own over the one shared path `State.enterInvalid`. -/

namespace Sys2Proof.Machine

/-- HLT (R180): `enter Halted`. Its address digits are ignored. -/
def execHlt (_x : Addr) (s : State) : Host.Outcome State Fault Refusal :=
  .next (s.enter .halted)

/-- Whether EXT takes effect (R181): in an extended build, and under `first_only` only when it was
fetched from address 0 (log entries 7 and 14). -/
def State.extAccepted (s : State) : Bool :=
  s.cfg.extendedBuild && (decide (s.cfg.extScope = .anywhere) || s.fetchedAtZero)

/-- EXT (R181): sets the extended-mode flag and stays Running; where it takes no effect, the word is
an ordinary halt. -/
def execExt (s : State) : Host.Outcome State Fault Refusal :=
  .next (if s.extAccepted then s.setExt true else s.enter .halted)

/-- Words 400..499 (R142, R182). -/
def execInvalid4xx (_x : Addr) (s : State) : Host.Outcome State Fault Refusal :=
  .next s.enterInvalid

/-- Word 900 (R163, R182). -/
def execInvalid900 (s : State) : Host.Outcome State Fault Refusal :=
  .next s.enterInvalid

/-- Words 903..910 (R163, R182). -/
def execInvalid903 (_f : Addr) (s : State) : Host.Outcome State Fault Refusal :=
  .next s.enterInvalid

/-- Words 913..999 (R163, R182). -/
def execInvalid913 (_f : Addr) (s : State) : Host.Outcome State Fault Refusal :=
  .next s.enterInvalid

/-- Words 911 and 912 outside extended mode (R163, R182). -/
def execInvalidGated (_f : Addr) (s : State) : Host.Outcome State Fault Refusal :=
  .next s.enterInvalid

end Sys2Proof.Machine
end

