-- ==== Sys2Proof/Machine/Dispatch.lean ====
section
/-! DEFINITION. Execute dispatch (40_controller.md R104): one arm per instruction. -/

namespace Sys2Proof.Machine

def exec (i : Instr) (s : State) : Host.Outcome State Fault Refusal :=
  match i with
  | .hlt x => Sys2Proof.Machine.execHlt x s
  | .ext => Sys2Proof.Machine.execExt s
  | .add a => Sys2Proof.Machine.execAdd a s
  | .sub a => Sys2Proof.Machine.execSub a s
  | .sto a => Sys2Proof.Machine.execSto a s
  | .invalid4xx x => Sys2Proof.Machine.execInvalid4xx x s
  | .lda a => Sys2Proof.Machine.execLda a s
  | .br a => Sys2Proof.Machine.execBr a s
  | .brz a => Sys2Proof.Machine.execBrz a s
  | .brp a => Sys2Proof.Machine.execBrp a s
  | .invalid900 => Sys2Proof.Machine.execInvalid900 s
  | .inp => Sys2Proof.Machine.execInp s
  | .out => Sys2Proof.Machine.execOut s
  | .invalid903 f => Sys2Proof.Machine.execInvalid903 f s
  | .ina => Sys2Proof.Machine.execIna s
  | .ota => Sys2Proof.Machine.execOta s
  | .invalid913 f => Sys2Proof.Machine.execInvalid913 f s
  | .invalidGated f => Sys2Proof.Machine.execInvalidGated f s

end Sys2Proof.Machine
end

