-- ==== Sys2Proof/Machine/Step.lean ====
section
/-! DEFINITION. One controller step (40_controller.md R105), and where an instruction is placed for the
next step to run it. -/

namespace Sys2Proof.Machine

/-- One controller step (R105). Not Running: nothing changes (R100). At `pc = 100`: ReachedEnd (R101).
Otherwise fetch and increment (R102), decode (R103) and execute (R104). -/
def step (s : State) : Host.Outcome State Fault Refusal :=
  if s.state = .running then
    match s.fetch with
    | none => .next (s.enter .reachedEnd)
    | some (w, s') => exec (s.decodeWord w) s'
  else .next s

/-- `s` with the instruction word numbered `w` stored where the next step fetches it, and with the
conditions under which that step runs it (`State.placeWord`, log entry 3). Every instruction is one
word, so `nbits` does not enter; a number over 999 is no word and changes nothing. -/
def State.withFetchWord (s : State) (nbits w : Nat) : State :=
  let _ := nbits
  match wordOfNat w with
  | some v => s.placeWord v
  | none => s

end Sys2Proof.Machine
end

