-- ==== Sys2Proof/Machine/Codec.lean ====
section
/-! DEFINITION. The binary codec (46_binary_codec.md): a pure function between a memory image and a
buffer of at most 125 bytes (R201). `pack` is written from the closed form of R194; `packBySource` is
the algorithm of R193, which the spec says gives the same bytes. -/

namespace Sys2Proof.Machine

/-- `CODEC_MAX_BYTES`: the packed size of 100 fields of 10 bits (R9). -/
def codecMaxBytes : Nat := 125

/-- The unpacker's errors (R197, R198, R251). -/
inductive CodecError where
  /-- The buffer is `n` bytes, more than 125 (R197). -/
  | bufferTooLarge (n : Nat)
  /-- Field `k` is `f`, over 999, and no earlier field is (R198). -/
  | invalidNumber (k f : Nat)
deriving DecidableEq, Repr

/-- A numeral as a 10-bit unsigned field (R191). -/
def fieldOf (w : Word) : Field := BitVec.ofNat 10 w.val

/-- Four fields in five bytes: the table of R194, its four phases in order. -/
def packGroup (f0 f1 f2 f3 : Field) : List Byte :=
  [ f0.extractLsb' 2 8,
    f0.extractLsb' 0 2 ++ f1.extractLsb' 4 6,
    f1.extractLsb' 0 4 ++ f2.extractLsb' 6 4,
    f2.extractLsb' 0 6 ++ f3.extractLsb' 8 2,
    f3.extractLsb' 0 8 ]

/-- Fields `4g .. 4g+3` fill bytes `5g .. 5g+4` (R192). An image has 25 whole groups. -/
def packFields : List Word → List Byte
  | w0 :: w1 :: w2 :: w3 :: ws =>
    packGroup (fieldOf w0) (fieldOf w1) (fieldOf w2) (fieldOf w3) ++ packFields ws
  | _ => []

/-- Trim trailing all-zero bytes (R195). -/
def trimZeros : List Byte → List Byte
  | [] => []
  | b :: bs =>
    match trimZeros bs with
    | [] => if b = 0 then [] else [b]
    | c :: cs => b :: c :: cs

/-- The packer (R194, R195). It never fails (R196). -/
def pack (img : Image) : List Byte := trimZeros (packFields img.toList)

/-- `B[i] <- B[i] | v`, for a byte value `v` (R193). -/
def orByte (B : List Byte) (i v : Nat) : List Byte := B.modify i fun b => b ||| BitVec.ofNat 8 v

/-- The loop of R193: byte index `i`, bit offset `off`, buffer `B`. -/
def packLoop : List Word → Nat → Nat → List Byte → List Byte
  | [], _, _, B => B
  | w :: ws, i, off, B =>
    let B := orByte B i ((w.val >>> off) &&& 0xFF)
    let B := orByte B (i + 1) ((w.val <<< (8 - off)) &&& 0xFF)
    if off + 2 = 10 then packLoop ws (i + 2) 2 B else packLoop ws (i + 1) (off + 2) B

/-- The packing algorithm as the source states it: 125 bytes and one spare byte (R193), trimmed (R195). -/
def packBySource (img : Image) : List Byte :=
  trimZeros ((packLoop img.toList 0 2 (List.replicate (codecMaxBytes + 1) 0)).take codecMaxBytes)

/-- `b[i]`: the buffer extended with zero bytes (R198). -/
def byteAt (P : List Byte) (i : Nat) : Nat := (P.getD i 0).toNat

/-- `f_k`, 0..1023 (R198). -/
def unpackField (P : List Byte) (k : Nat) : Nat :=
  let j := k % 4
  let i := 5 * (k / 4) + j
  ((byteAt P i <<< (2 + 2 * j)) ||| (byteAt P (i + 1) >>> (6 - 2 * j))) &&& 0x3FF

/-- The unpacker (R197, R198): the length check first, then the least field over 999, else the image.
Trailing zero bytes and a buffer that stops inside a field are accepted (R199). -/
def unpack (P : List Byte) : Except CodecError Image :=
  if codecMaxBytes < P.length then .error (.bufferTooLarge P.length)
  else
    match (List.range 100).find? fun k => decide (999 < unpackField P k) with
    | some k => .error (.invalidNumber k (unpackField P k))
    | none => .ok (Vector.ofFn fun k => Fin.ofNat 1000 (unpackField P k.val))

end Sys2Proof.Machine
end

