-- ==== Sys2Proof/Machine/HostCommands.lean ====
section
/-! DEFINITION. The host's commands (48_host_interface.md R220), each an atomic transaction between
steps. A command that fails answers an error and changes no state (R227). -/

namespace Sys2Proof.Machine

/-- What a command can fail with (R227, R251). -/
inductive CommandError where
  /-- `input` or `input_char` in the wrong state (R167, R169). -/
  | unexpectedInput
  /-- `output` or `output_char` in the wrong state (R168, R170). -/
  | unexpectedOutput
  /-- A host value that is no numeral: refused before any command reaches the block (R171). -/
  | range (e : RangeError)
  /-- `load_bytes` of a buffer the unpacker rejects (R225). -/
  | codec (e : CodecError)
  /-- The model's own: a step that was refused. No instruction is refused, so it never arises. -/
  | refused (r : Refusal)
deriving DecidableEq, Repr

/-- A value arrives and the controller runs on (R167, R169). -/
def State.takeInput (s : State) (v : Word) : State := (s.setAcc v).enter .running

/-- The value is read out and the controller runs on; `acc` is kept unless `OUTPUT_CLEARS_ACC` (R168). -/
def State.releaseOutput (s : State) : State :=
  (if s.cfg.outputClearsAcc then s.setAcc 0 else s).enter .running

/-- `input(v)` (R167). -/
def input (v : Word) (s : State) : Except CommandError State :=
  if s.state = .awaitingInput then .ok (s.takeInput v) else .error .unexpectedInput

/-- `output()` (R168): the value and the state after. -/
def output (s : State) : Except CommandError (Word × State) :=
  if s.state = .awaitingOutput then .ok (s.acc, s.releaseOutput) else .error .unexpectedOutput

/-- `input_char(v)` (R169). -/
def inputChar (v : Word) (s : State) : Except CommandError State :=
  if s.state = .awaitingCharInput then .ok (s.takeInput v) else .error .unexpectedInput

/-- `output_char()` (R170). -/
def outputChar (s : State) : Except CommandError (Word × State) :=
  if s.state = .awaitingCharOutput then .ok (s.acc, s.releaseOutput) else .error .unexpectedOutput

/-- The host's side of an input: a number of 1000 or more fails the range check and never reaches the
block (R171). -/
def offerInput (n : Nat) (s : State) : Except CommandError State :=
  match tryFrom n with
  | .ok v => input v s
  | .error e => .error (.range e)

/-- `reset()` (R272): every register at its reset value, memory unchanged; in any state. -/
def reset (s : State) : State := State.atReset s.cfg s.mem

/-- `load(image)` (R223): construction with a memory image; in any state. -/
def load (img : Image) (s : State) : State := State.atReset s.cfg (Memory.ofImage img)

/-- `load_bytes(P)` (R225). -/
def loadBytes (P : List Byte) (s : State) : Except CommandError State :=
  match unpack P with
  | .ok img => .ok (load img s)
  | .error e => .error (.codec e)

/-- `dump()` (R224). -/
def dump (s : State) : Image := s.mem.toImage

/-- What `read_state()` returns (R226). -/
structure Registers where
  state : CtrlState
  pc : Pc
  acc : Word
  neg : Bool
  ext : Bool
deriving DecidableEq, Repr

/-- `read_state()` (R226). -/
def readState (s : State) : Registers :=
  { state := s.state, pc := s.pc, acc := s.acc, neg := s.neg, ext := s.extFlag }

/-- `run()` within `n` steps (R222): step while Running; `none` if it has not returned by then. A block
that is not Running is returned at once. -/
def runWithin : Nat → State → Option State
  | 0, s => if s.state = .running then none else some s
  | n + 1, s =>
    if s.state = .running then
      match step s with
      | .next t => runWithin n t
      | .fault f => nomatch f
      | .refused _ => none
    else some s

/-- `run()` issued in `s` returns with the block in `t` (R222). It may never return (R111), so it
is a relation (DESIGN CHOICE, log entry 18). -/
def Runs (s t : State) : Prop := ∃ n, runWithin n s = some t

/-- The commands of R220 but `run()`, which need not return (`Runs`). -/
inductive Command where
  | step
  | load (img : Image)
  | loadBytes (P : List Byte)
  | reset
  | input (v : Word)
  | output
  | inputChar (v : Word)
  | outputChar
  | readState
  | dump
deriving DecidableEq, Repr

/-- What a command returns to the host. -/
inductive Reply where
  | done
  | state (c : CtrlState)
  | value (v : Word)
  | registers (r : Registers)
  | words (img : Image)
deriving DecidableEq, Repr

/-- One command: its reply and the state after, or its error (R220). -/
def perform (c : Command) (s : State) : Except CommandError (Reply × State) :=
  match c with
  | .step =>
    match step s with
    | .next t => .ok (.state t.state, t)
    | .fault f => nomatch f
    | .refused r => .error (.refused r)
  | .load img => .ok (.done, load img s)
  | .loadBytes P => (loadBytes P s).map fun t => (.done, t)
  | .reset => .ok (.done, reset s)
  | .input v => (input v s).map fun t => (.done, t)
  | .output => (output s).map fun r => (.value r.1, r.2)
  | .inputChar v => (inputChar v s).map fun t => (.done, t)
  | .outputChar => (outputChar s).map fun r => (.value r.1, r.2)
  | .readState => .ok (.registers (readState s), s)
  | .dump => .ok (.words (dump s), s)

/-- The state after a command: a failed one changes nothing (R227). -/
def after (c : Command) (s : State) : State :=
  match perform c s with
  | .ok r => r.2
  | .error _ => s

end Sys2Proof.Machine
end

