-- ==== Sys2Proof/Machine/Harness.lean ====
section
/-! DEFINITION. The test-harness driver (48_host_interface.md R229 to R232). It is surrounding software,
outside the hardware (00_scope.md R4), modelled as the reference host; the block does not depend on it. -/

namespace Sys2Proof.Machine

/-- `CHAR_CODEC` (R172): the host's mapping between characters and numerals, an argument because the
spec leaves it open; `none` where it has no value (log entry 12). -/
structure CharCodec where
  toWord : Char → Option Word
  ofWord : Word → Option Char

/-- A test case (R229). The queues hold what is still to be consumed. -/
structure TestCase where
  name : String
  inputs : List Word
  outputs : List Word
  charInputs : List Char
  charOutputs : List Char
  maxCycles : Nat
deriving DecidableEq, Repr

/-- How a test fails; every failure carries the test name and the cycle count (R231). -/
inductive HarnessError where
  | runOutOfCycles (name : String) (cycles : Nat)
  | runOutOfInputs (name : String) (cycles : Nat)
  | runOutOfOutputs (name : String) (cycles : Nat)
  | differentOutput (name : String) (cycles : Nat) (expected actual : Word)
  | differentCharOutput (name : String) (cycles : Nat) (expected : Char) (actual : Word)
  | invalidInstruction (name : String) (cycles : Nat)
  | expectedMoreInputs (name : String) (cycles : Nat)
  | expectedMoreOutputs (name : String) (cycles : Nat)
  /-- The model's own (log entry 12): `CHAR_CODEC` has no numeral for an input character. -/
  | noNumeral (name : String) (cycles : Nat) (c : Char)
  /-- The model's own: a command failed. It never arises: each is issued in its own state. -/
  | command (name : String) (cycles : Nat) (e : CommandError)
deriving DecidableEq, Repr

/-- The checks at the end of the loop: an exact, fully consumed script (R230, R231). -/
def checkConsumed (t : TestCase) (cycles : Nat) : Except HarnessError Nat :=
  if t.inputs ≠ [] ∨ t.charInputs ≠ [] then .error (.expectedMoreInputs t.name cycles)
  else if t.outputs ≠ [] ∨ t.charOutputs ≠ [] then .error (.expectedMoreOutputs t.name cycles)
  else .ok cycles

/-- How the harness answers the state a step returned (R230): the block and the queues to go on with,
or `none` at a successful end. -/
def answer (codec : CharCodec) (t : TestCase) (cycles : Nat) (s : State) :
    Except HarnessError (Option (TestCase × State)) :=
  match s.state with
  | .running => .ok (some (t, s))
  | .awaitingInput =>
    match t.inputs with
    | [] => .error (.runOutOfInputs t.name cycles)
    | v :: vs =>
      match input v s with
      | .ok s' => .ok (some ({ t with inputs := vs }, s'))
      | .error e => .error (.command t.name cycles e)
  | .awaitingCharInput =>
    match t.charInputs with
    | [] => .error (.runOutOfInputs t.name cycles)
    | c :: cs =>
      match codec.toWord c with
      | none => .error (.noNumeral t.name cycles c)
      | some v =>
        match inputChar v s with
        | .ok s' => .ok (some ({ t with charInputs := cs }, s'))
        | .error e => .error (.command t.name cycles e)
  | .awaitingOutput =>
    match t.outputs with
    | [] => .error (.runOutOfOutputs t.name cycles)
    | v :: vs =>
      match output s with
      | .ok (a, s') =>
        if a = v then .ok (some ({ t with outputs := vs }, s'))
        else .error (.differentOutput t.name cycles v a)
      | .error e => .error (.command t.name cycles e)
  | .awaitingCharOutput =>
    match t.charOutputs with
    | [] => .error (.runOutOfOutputs t.name cycles)
    | c :: cs =>
      match outputChar s with
      | .ok (a, s') =>
        if codec.ofWord a = some c then .ok (some ({ t with charOutputs := cs }, s'))
        else .error (.differentCharOutput t.name cycles c a)
      | .error e => .error (.command t.name cycles e)
  | .halted => .ok none
  | .reachedEnd => .ok none
  | .invalidInstruction => .error (.invalidInstruction t.name cycles)

/-- The loop of R230 with `left = max_cycles - cycles` steps left; it answers the cycle at which the
test passes. -/
def harnessLoop (codec : CharCodec) : Nat → Nat → TestCase → State → Except HarnessError Nat
  | 0, cycles, t, _ => .error (.runOutOfCycles t.name cycles)
  | left + 1, cycles, t, s =>
    match step s with
    | .fault f => nomatch f
    | .refused r => .error (.command t.name (cycles + 1) (.refused r))
    | .next s' =>
      match answer codec t (cycles + 1) s' with
      | .error e => .error e
      | .ok none => checkConsumed t (cycles + 1)
      | .ok (some (t', s'')) => harnessLoop codec left (cycles + 1) t' s''

/-- Drive a block already loaded with a program through a test case (R230). -/
def runTest (codec : CharCodec) (t : TestCase) (s : State) : Except HarnessError Nat :=
  harnessLoop codec t.maxCycles 0 t s

end Sys2Proof.Machine
end

