-- ==== Sys2Proof/Machine/Reference.lean ====
section
/-! DEFINITION. The pseudocode of the whole step (40_controller.md R105), written as one function on
numbers, without the instruction type, the decoder, the meanings or their shared operations. It is no
part of the machine: a statement says that `step` is this function. -/

namespace Sys2Proof.Machine

/-- The part of R105 after the fetch: `w` was fetched from `a`, and `s` is the state before the step. -/
def executeBySource (a : Addr) (w : Word) (s : State) : State :=
  let s1 : State := { s with pc := ⟨a.val + 1, by omega⟩ }
  let op := w.val / 100
  let addr : Addr := ⟨w.val % 100, by omega⟩
  let m := s.mem.read addr
  let target : Pc := ⟨w.val % 100, by omega⟩
  let ext := s.cfg.extendedBuild && s.ext
  if op = 1 then { s1 with acc := ⟨(s.acc.val + m.val) % 1000, by omega⟩ }
  else if op = 2 then
    { s1 with neg := decide (s.acc.val < m.val), acc := ⟨(s.acc.val + 1000 - m.val) % 1000, by omega⟩ }
  else if op = 3 then { s1 with mem := s.mem.write addr s.acc }
  else if op = 5 then { s1 with acc := m }
  else if op = 6 then { s1 with pc := target }
  else if op = 7 then (if s.acc.val = 0 then { s1 with pc := target } else s1)
  else if op = 8 then (if s.neg = false then { s1 with pc := target } else s1)
  else if w.val = 901 then { s1 with state := .awaitingInput }
  else if w.val = 902 then { s1 with state := .awaitingOutput }
  else if w.val = 911 ∧ ext = true then { s1 with state := .awaitingCharInput }
  else if w.val = 912 ∧ ext = true then { s1 with state := .awaitingCharOutput }
  else if w.val = 10 ∧ s.cfg.extendedBuild = true then
    (if s.cfg.extScope = .anywhere ∨ a.val = 0 then { s1 with ext := true }
     else { s1 with state := .halted })
  else if w.val < 100 then { s1 with state := .halted }
  else { s1 with state := .invalidInstruction }

/-- R105, line by line. -/
def stepBySource (s : State) : State :=
  if s.state ≠ .running then s
  else if h : s.pc.val < 100 then executeBySource ⟨s.pc.val, h⟩ (s.mem.read ⟨s.pc.val, h⟩) s
  else { s with state := .reachedEnd }

end Sys2Proof.Machine
end

