-- ==== Sys2Proof/Safety.lean ====
section
/-! DEFINITION. What counts as a good state and a good end, in the terms the statements use. -/

namespace Sys2Proof

/-- Every invalid encoding (R182). -/
def Instr.isInvalid : Instr → Bool
  | .invalid4xx _ | .invalid900 | .invalid903 _ | .invalid913 _ | .invalidGated _ => true
  | .hlt _ | .ext | .add _ | .sub _ | .sto _ | .lda _ | .br _ | .brz _ | .brp _ | .inp | .out | .ina
  | .ota => false

end Sys2Proof

namespace Sys2Proof.Machine

/-- Halted, ReachedEnd or InvalidInstruction (R25, R253). -/
def CtrlState.terminal : CtrlState → Bool
  | .halted | .reachedEnd | .invalidInstruction => true
  | .running | .awaitingInput | .awaitingOutput | .awaitingCharInput | .awaitingCharOutput => false

/-- One of the four Awaiting states (R25). -/
def CtrlState.suspended : CtrlState → Bool
  | .awaitingInput | .awaitingOutput | .awaitingCharInput | .awaitingCharOutput => true
  | .running | .halted | .reachedEnd | .invalidInstruction => false

/-- A run that ends well: Halted or ReachedEnd. InvalidInstruction is never a success
(93_implementation_defined.md). -/
def State.endsWell (s : State) : Bool := decide (s.state = .halted) || decide (s.state = .reachedEnd)

/-- `mem[pc - 1]`: after a step that took no branch, the word it fetched, if no STO overwrote it (R182). -/
def State.lastWord (s : State) : Option Word :=
  if h : 1 ≤ s.pc.val then some (s.mem.read ⟨s.pc.val - 1, by omega⟩) else none

/-- The instruction at `pc - 1`, decoded as the controller would now. -/
def State.lastInstr (s : State) : Option Instr := s.lastWord.map s.decodeWord

/-- The controller state is explained by the machine's other state: each suspension and each stop was
entered by the word that stands at `pc - 1`, and ReachedEnd stands at the end of memory. -/
def State.stateExplained (s : State) : Bool :=
  match s.state with
  | .running => true
  | .awaitingInput => decide (s.lastInstr = some .inp)
  | .awaitingOutput => decide (s.lastInstr = some .out)
  | .awaitingCharInput => decide (s.lastInstr = some .ina)
  | .awaitingCharOutput => decide (s.lastInstr = some .ota)
  | .halted => s.lastWord.any fun w => decide (w.val < 100)
  | .reachedEnd => decide (s.pc.val = 100)
  | .invalidInstruction => s.lastInstr.any Instr.isInvalid

/-- The block's invariant: memory in its canonical form; the extended-mode flag set only in an extended
build (R24); the controller state explained (R25, R251). -/
abbrev State.Inv (s : State) : Prop :=
  s.mem.wf = true ∧ (s.ext = true → s.cfg.extendedBuild = true) ∧ s.stateExplained = true

/-- The states a host can bring the block to: it starts with a load (R270, R276), and any command may
follow (R220). A `run()` is a sequence of steps (R222). -/
inductive Reachable : State → Prop
  | load (img : Image) (s : State) : Reachable (load img s)
  | command (c : Command) (s : State) : Reachable s → Reachable (after c s)

/-- The controller is Running and about to fetch the word `w` from the address `a` (R102). -/
abbrev RunningAt (s : State) (a : Addr) (w : Word) : Prop :=
  s.state = .running ∧ s.pc.val = a.val ∧ s.mem.read a = w

/-- The word numbers that are invalid (R66, R182), by whether extended mode is on. -/
abbrev InvalidWord (extended : Bool) (n : Nat) : Prop :=
  (400 ≤ n ∧ n ≤ 499) ∨ n = 900 ∨ (903 ≤ n ∧ n ≤ 910) ∨ (913 ≤ n ∧ n ≤ 999) ∨
    ((n = 911 ∨ n = 912) ∧ extended = false)

/-- Every word of memory reads the same in the two states. -/
abbrev SameMemory (s t : State) : Prop := ∀ a : Addr, t.mem.read a = s.mem.read a

end Sys2Proof.Machine
end

