-- ==== Sys2Proof/Certificates/Slice0/Obligations.lean ====
section
/-! DEFINITION. The statements for the provers. A state written `{ s with … }` says the frame at once:
every register, flag and parameter not named is as in `s`, and memory, where not named, is the same
list, so every address reads as before. -/

open Sys2Proof Sys2Proof.Machine

/-! ### The bounded-numeral unit -/

/-- R121. -/
def Obligations.AdderIsModulo1000 : Prop :=
  ∀ a b : Word, (add a b).val = (a.val + b.val) % 1000 ∧ (add a b).val ≤ 999

/-- R122: result and borrow, against the integer difference. -/
def Obligations.SubtracterGivesResultAndBorrow : Prop :=
  ∀ a b : Word,
    1 ≤ (a.val : Int) - b.val + 1000 ∧ (a.val : Int) - b.val + 1000 ≤ 1999 ∧
    (((subtract a b).1.val : Nat) : Int) = ((a.val : Int) - b.val + 1000) % 1000 ∧
    (subtract a b).1.val ≤ 999 ∧
    ((subtract a b).2 = true ↔ a.val < b.val) ∧ ((subtract a b).2 = true ↔ (a.val : Int) - b.val < 0)

/-- The laws of 41_arithmetic.md section 1 (R125), its derived one among them: adding back what was
subtracted, a number less itself, and that a borrow never gives zero (R151's corner case). -/
def Obligations.SubtractionLaws : Prop :=
  (∀ a b : Word, add (subtract a b).1 b = a) ∧ (∀ a : Word, subtract a a = (0, false)) ∧
  (∀ a b : Word, (subtract a b).2 = true → isZero (subtract a b).1 = false)

/-- R120: both forms of the range check, and the boundaries of the block where it stands (a host input
value, R171, and a codec field, R198). The last clause names the model's reading of the codec field. -/
def Obligations.RangeCheckAdmitsExactly0To999 : Prop :=
  (∀ b : Byte, (numeralOfByte b).val = b.toNat) ∧
  (∀ n, n ≤ 999 → ∃ w : Word, w.val = n ∧ tryFrom n = .ok w) ∧
  (∀ n, 1000 ≤ n → tryFrom n = .error ⟨n⟩) ∧
  (∀ n s, 1000 ≤ n → offerInput n s = .error (.range ⟨n⟩)) ∧
  (∀ (v : Word) s, offerInput v.val s = input v s) ∧
  (∀ P img (k : Addr), unpack P = .ok img → unpackField P k.val = (img.get k).val)

/-! ### Instructions: what selects each, what it does, and its frame -/

/-- ADD (R123). That `neg` is unchanged is the spec's decision D4. -/
def Obligations.AddAddsTheOperandModulo1000 : Prop :=
  (∀ b e w a, decode b e w = .add a ↔ w.val = 100 + a.val) ∧
  (∀ a s, ∃ v : Word, v.val = (s.acc.val + (s.mem.read a).val) % 1000 ∧
    exec (.add a) s = .next { s with acc := v })

/-- SUB (R124): `neg` always, from the values before the instruction. -/
def Obligations.SubSubtractsAndSetsTheBorrow : Prop :=
  (∀ b e w a, decode b e w = .sub a ↔ w.val = 200 + a.val) ∧
  (∀ a s, ∃ v : Word,
    ((v.val : Nat) : Int) = ((s.acc.val : Int) - (s.mem.read a).val + 1000) % 1000 ∧
    exec (.sub a) s = .next { s with acc := v, neg := decide (s.acc.val < (s.mem.read a).val) })

/-- STO (R141): the one word stored, every other word as before, at every address. The last clause, that
the memory stays in its canonical form, is about the model's own choice of form (log entry 16, DESIGN
CHOICE). -/
def Obligations.StoStoresTheAccumulatorAtOneAddress : Prop :=
  (∀ b e w a, decode b e w = .sto a ↔ w.val = 300 + a.val) ∧
  (∀ a s, ∃ m : Memory, exec (.sto a) s = .next { s with mem := m } ∧ m.read a = s.acc ∧
    (∀ b, b ≠ a → m.read b = s.mem.read b) ∧ (s.mem.wf = true → m.wf = true))

/-- LDA (R140). That `neg` is unchanged is the spec's decision D4. -/
def Obligations.LdaLoadsTheOperand : Prop :=
  (∀ b e w a, decode b e w = .lda a ↔ w.val = 500 + a.val) ∧
  (∀ a s, exec (.lda a) s = .next { s with acc := s.mem.read a })

/-- BR (R150): the target is absolute, and a branch to its own address leaves the block as it was. -/
def Obligations.BrBranchesAbsolutely : Prop :=
  (∀ b e w a, decode b e w = .br a ↔ w.val = 600 + a.val) ∧
  (∀ a s, ∃ p : Pc, p.val = a.val ∧ exec (.br a) s = .next { s with pc := p }) ∧
  (∀ s a w, RunningAt s a w → w.val = 600 + a.val → step s = .next s)

/-- BRZ (R151): it tests the accumulator and never `neg`. -/
def Obligations.BrzBranchesExactlyOnZero : Prop :=
  (∀ b e w a, decode b e w = .brz a ↔ w.val = 700 + a.val) ∧
  (∀ a s, ∃ p : Pc, p.val = (if s.acc.val = 0 then a.val else s.pc.val) ∧
    exec (.brz a) s = .next { s with pc := p })

/-- BRP (R152): it tests `neg`, does not clear it, and never reads the accumulator. -/
def Obligations.BrpBranchesExactlyWhenNotNegative : Prop :=
  (∀ b e w a, decode b e w = .brp a ↔ w.val = 800 + a.val) ∧
  (∀ a s, ∃ p : Pc, p.val = (if s.neg = false then a.val else s.pc.val) ∧
    exec (.brp a) s = .next { s with pc := p })

/-- INP (R161): `acc` is not written by the instruction. -/
def Obligations.InpSuspendsForInput : Prop :=
  (∀ b e w, decode b e w = .inp ↔ w.val = 901) ∧
  (∀ s, exec .inp s = .next { s with state := .awaitingInput })

/-- OUT (R162). -/
def Obligations.OutSuspendsForOutput : Prop :=
  (∀ b e w, decode b e w = .out ↔ w.val = 902) ∧
  (∀ s, exec .out s = .next { s with state := .awaitingOutput })

/-- INA (R164): selected only in extended mode. The last clause, what `exec` does where the flag is false,
is a case that no step reaches (log entry 14, DEDUCED from R164's Exceptions). -/
def Obligations.InaSuspendsForCharacterInput : Prop :=
  (∀ b e w, decode b e w = .ina ↔ w.val = 911 ∧ b = true ∧ e = true) ∧
  (∀ s, s.extFlag = true → exec .ina s = .next { s with state := .awaitingCharInput }) ∧
  (∀ s, s.extFlag = false → exec .ina s = .next { s with state := .invalidInstruction })

/-- OTA (R165): selected only in extended mode. The last clause, what `exec` does where the flag is false,
is a case that no step reaches (log entry 14, DEDUCED from R165's Exceptions). -/
def Obligations.OtaSuspendsForCharacterOutput : Prop :=
  (∀ b e w, decode b e w = .ota ↔ w.val = 912 ∧ b = true ∧ e = true) ∧
  (∀ s, s.extFlag = true → exec .ota s = .next { s with state := .awaitingCharOutput }) ∧
  (∀ s, s.extFlag = false → exec .ota s = .next { s with state := .invalidInstruction })

/-- HLT (R180): which words select it, what it changes. That `pc` stands one past the HLT is the spec's
decision D3. -/
def Obligations.HltHaltsAndChangesNothingElse : Prop :=
  (∀ b e w x, decode b e w = .hlt x ↔ w.val = x.val ∧ ¬(b = true ∧ w.val = 10)) ∧
  (∀ x s, exec (.hlt x) s = .next { s with state := .halted }) ∧
  (∀ s a w, RunningAt s a w → w.val ≤ 99 → ¬(s.cfg.extendedBuild = true ∧ w.val = 10) →
    step s = .next { s with pc := nextPc a, state := .halted })

/-- EXT (R181), for both values of `EXT_SCOPE` (the spec's decision D6 leaves it a parameter): accepted,
it sets the flag; refused, it halts. The last clause, that `exec` of EXT halts in a base build, is a case
that no word selects and no step reaches (log entry 14, DEDUCED from what R181 says of the word 010). -/
def Obligations.ExtEnablesExtendedModeWhereItsScopeAllows : Prop :=
  (∀ b e w, decode b e w = .ext ↔ w.val = 10 ∧ b = true) ∧
  (∀ s, s.cfg.extendedBuild = true → s.cfg.extScope = .anywhere →
    exec .ext s = .next { s with ext := true }) ∧
  (∀ s, s.cfg.extendedBuild = true → s.cfg.extScope = .firstOnly → s.pc.val = 1 →
    exec .ext s = .next { s with ext := true }) ∧
  (∀ s, s.cfg.extendedBuild = true → s.cfg.extScope = .firstOnly → s.pc.val ≠ 1 →
    exec .ext s = .next { s with state := .halted }) ∧
  (∀ s, s.cfg.extendedBuild = false → exec .ext s = .next { s with state := .halted })

/-- EXT as the controller reaches it: under `first_only` it takes effect from address 0 alone (R181), and
what follows decodes 911 and 912 as INA and OTA. The scope is the spec's decision D6. That `pc` stands one
past the word, in the Halted state of the `first_only` clause too, is the spec's decision D3 (log entry 4),
and 93_implementation_defined.md says that claims should not rest on that `pc`. -/
def Obligations.ExtTakesEffectByItsAddress : Prop :=
  ∀ s a w, RunningAt s a w → w.val = 10 → s.cfg.extendedBuild = true →
    ((s.cfg.extScope = .anywhere ∨ a.val = 0) →
      ∃ t, step s = .next t ∧ t = { s with pc := nextPc a, ext := true } ∧
        ∀ v : Word, (v.val = 911 → t.decodeWord v = .ina) ∧ (v.val = 912 → t.decodeWord v = .ota)) ∧
    (s.cfg.extScope = .firstOnly → a.val ≠ 0 →
      step s = .next { s with pc := nextPc a, state := .halted })

/-- Invalid words (R66, R182): exactly these, each ends in InvalidInstruction and changes nothing else. -/
def Obligations.InvalidWordsEnterInvalidInstruction : Prop :=
  (∀ b e w, (decode b e w).isInvalid = true ↔ InvalidWord (b && e) w.val) ∧
  (∀ x s, exec (.invalid4xx x) s = .next { s with state := .invalidInstruction }) ∧
  (∀ s, exec .invalid900 s = .next { s with state := .invalidInstruction }) ∧
  (∀ f s, exec (.invalid903 f) s = .next { s with state := .invalidInstruction }) ∧
  (∀ f s, exec (.invalid913 f) s = .next { s with state := .invalidInstruction }) ∧
  (∀ f s, exec (.invalidGated f) s = .next { s with state := .invalidInstruction })

/-- The stop is precise (R256): the invalid word changes `pc` (incremented, the spec's decision D3) and
`state`, and is found at `pc - 1`. -/
def Obligations.InvalidStopIsPrecise : Prop :=
  ∀ s a w, RunningAt s a w → InvalidWord s.extFlag w.val →
    ∃ t, step s = .next t ∧ t = { s with pc := nextPc a, state := .invalidInstruction } ∧
      t.lastWord = some w

/-! ### Encoding -/

/-- Decode and encode agree: every well-formed instruction, every operand, in every mode. -/
def Obligations.DecodeOfEncodeIsTheInstruction : Prop :=
  ∀ b e i, Instr.wf b e i = true → decode b e (encode i) = i

/-- Every word decodes to a well-formed instruction of this model, and no digit of it is lost. It is a
statement about the model's syntax: it holds because HLT and the invalid forms keep the digits that the spec
says are ignored (log entry 17, DESIGN CHOICE). N12 of 91_not_in_source.md says not to assume of the spec's
instructions that every word re-encodes to itself. -/
def Obligations.EncodeOfDecodeIsTheWord : Prop :=
  ∀ b e w, Instr.wf b e (decode b e w) = true ∧ encode (decode b e w) = w

/-- R68: the mode bit changes decoding at 911 and 912 alone; the build at 010 besides. -/
def Obligations.ModeChangesOnly911And912 : Prop :=
  (∀ b e e' w, decode b e w ≠ decode b e' w → b = true ∧ e ≠ e' ∧ (w.val = 911 ∨ w.val = 912)) ∧
  (∀ e e' (w : Word), e ≠ e' → (w.val = 911 ∨ w.val = 912) → decode true e w ≠ decode true e' w) ∧
  (∀ b b' e w, decode b e w ≠ decode b' e w → w.val = 10 ∨ w.val = 911 ∨ w.val = 912)

/-- A few words of the decode map (R64), written out. -/
def Obligations.SampleWordsDecodeAsTheMapSays : Prop :=
  decode false false 199 = .add 99 ∧ decode true true 210 = .sub 10 ∧ decode false false 307 = .sto 7 ∧
  decode false false 450 = .invalid4xx 50 ∧ decode false false 510 = .lda 10 ∧
  decode true false 605 = .br 5 ∧ decode false false 706 = .brz 6 ∧ decode false false 899 = .brp 99 ∧
  decode false false 901 = .inp ∧ decode true true 912 = .ota ∧ decode true false 911 = .invalidGated 11 ∧
  decode true false 10 = .ext ∧ decode false false 10 = .hlt 10

/-! ### The controller -/

/-- A step runs the decoded instruction (R102, R103, R104): on the state with `pc` moved past the word.
That `pc` moves for every word is the spec's decision D3. -/
def Obligations.StepRunsTheDecodedInstruction : Prop :=
  ∀ s a w, RunningAt s a w →
    step s = exec (decode s.cfg.extendedBuild (s.cfg.extendedBuild && s.ext) w)
      { s with pc := nextPc a }

/-- R100. -/
def Obligations.StepWhileNotRunningChangesNothing : Prop :=
  ∀ s, s.state ≠ .running → step s = .next s

/-- R101. -/
def Obligations.StepAtPc100EntersReachedEnd : Prop :=
  ∀ s, s.state = .running → s.pc.val = 100 → step s = .next { s with state := .reachedEnd }

/-- Every instruction completes and every step answers a next state, from every state (R108, R252). -/
def Obligations.EveryStepAnswersANextState : Prop :=
  (∀ i s, ∃ t, exec i s = .next t) ∧ (∀ s, ∃ t, step s = .next t)

/-- The step is the pseudocode of R105, line by line, in every state and for all 1000 words. The `pc` that
both leave after a HLT or an invalid word is the spec's decision D3 (log entry 4). -/
def Obligations.StepIsThePseudocodeOfTheSpec : Prop :=
  ∀ s, step s = .next (stepBySource s)

/-- R23: `pc` reaches 100 only by the increment after a word fetched from address 99, and it never wraps.
That every word increments it is the spec's decision D3. -/
def Obligations.PcReaches100OnlyFromAddress99 : Prop :=
  ∀ s t, step s = .next t →
    (t.pc.val = 100 → s.pc.val = 100 ∨ (s.state = .running ∧ s.pc.val = 99)) ∧
    (s.pc.val = 100 → t.pc = s.pc) ∧
    (t.pc ≠ s.pc → t.pc.val = s.pc.val + 1 ∨
      ∃ a w, RunningAt s a w ∧ 600 ≤ w.val ∧ w.val ≤ 899 ∧ t.pc.val = w.val % 100)

/-- Only SUB writes `neg` and only EXT writes `ext`, and `ext` only to true (R24, R109). That no other
instruction writes `neg` is the spec's decision D4. -/
def Obligations.OnlySubWritesNegAndOnlyExtWritesExt : Prop :=
  ∀ s t, step s = .next t →
    (t.neg ≠ s.neg → ∃ a w, RunningAt s a w ∧ 200 ≤ w.val ∧ w.val ≤ 299) ∧
    (t.ext ≠ s.ext → t.ext = true ∧ ∃ a w, RunningAt s a w ∧ w.val = 10)

/-- Only ADD, SUB and LDA write the accumulator in a step; between steps only an input command does, a
reset or load, and an output command under `OUTPUT_CLEARS_ACC` (R21; the spec's decisions D4 and D5). -/
def Obligations.TheAccumulatorHasTheseWritersOnly : Prop :=
  (∀ s t, step s = .next t → t.acc ≠ s.acc →
    ∃ a w, RunningAt s a w ∧ (w.val / 100 = 1 ∨ w.val / 100 = 2 ∨ w.val / 100 = 5)) ∧
  (∀ c s, (after c s).acc ≠ s.acc →
    c = .step ∨ c = .reset ∨ (∃ img, c = .load img) ∨ (∃ P, c = .loadBytes P) ∨
    (∃ v, c = .input v ∧ s.state = .awaitingInput ∧ (after c s).acc = v) ∨
    (∃ v, c = .inputChar v ∧ s.state = .awaitingCharInput ∧ (after c s).acc = v) ∨
    ((c = .output ∨ c = .outputChar) ∧ s.cfg.outputClearsAcc = true ∧ (after c s).acc = 0))

/-- One step writes at most one word of memory, that of a STO, and nothing but a step and a load writes
memory (R28, R43, R52). That `reset()` keeps the current words is the spec's decision D8 (log entry 8), and
that no host command writes single words is its decision D12 (log entry 11). -/
def Obligations.OnlyStoAndLoadWriteMemory : Prop :=
  (∀ s t, step s = .next t → SameMemory s t ∨
    ∃ a w, RunningAt s a w ∧ 300 ≤ w.val ∧ w.val ≤ 399 ∧
      ∀ b : Addr, t.mem.read b = if b.val = w.val % 100 then s.acc else s.mem.read b) ∧
  (∀ c s, SameMemory s (after c s) ∨ c = .step ∨ (∃ img, c = .load img) ∨ (∃ P, c = .loadBytes P))

/-- Self-modifying code (R53): a STO into the next word changes the instruction the next step runs. That
every word moves `pc` is the spec's decision D3. -/
def Obligations.AStoIsSeenByTheNextFetch : Prop :=
  ∀ s a b w, RunningAt s a w → b.val = a.val + 1 → w.val = 300 + b.val →
    ∃ t, step s = .next t ∧ RunningAt t b s.acc ∧
      step t = exec (t.decodeWord s.acc) { t with pc := nextPc b }

/-- The transitions of `state` that commands other than a step make, and that none other exists (R106). -/
def Obligations.CommandsMakeTheseStateTransitionsOnly : Prop :=
  ∀ c s, c ≠ .step → (after c s).state ≠ s.state →
    (after c s).state = .running ∧
    (c = .reset ∨ (∃ img, c = .load img) ∨ (∃ P, c = .loadBytes P) ∨
      (s.state = .awaitingInput ∧ ∃ v, c = .input v) ∨ (s.state = .awaitingOutput ∧ c = .output) ∨
      (s.state = .awaitingCharInput ∧ ∃ v, c = .inputChar v) ∨
      (s.state = .awaitingCharOutput ∧ c = .outputChar))

/-! ### Invariants -/

/-- The state after reset meets the invariant, with the registers at the values of R272. Its memory and
its build are the model's choices (log entries 2 and 1): the statement says only that they are good. -/
def Obligations.ResetMeetsTheInvariant : Prop :=
  State.reset.Inv ∧ State.reset.pc.val = 0 ∧ State.reset.acc.val = 0 ∧ State.reset.neg = false ∧
    State.reset.ext = false ∧ State.reset.state = .running

/-- Every step keeps the invariant: canonical memory, the flag only in an extended build, and every stop
and suspension explained by the word at `pc - 1` (R24, R25, R182, R251). Its clauses on Halted and
InvalidInstruction at `pc - 1` rest on the spec's decision D3 (log entry 4), and
93_implementation_defined.md says that claims should not rest on that `pc`; the canonical form of memory is
the model's choice (log entry 16, DESIGN CHOICE). -/
def Obligations.EveryStepKeepsTheInvariant : Prop :=
  ∀ s t, State.Inv s → step s = .next t → State.Inv t

/-- Every state a host can reach, by loads, steps and any other commands, meets the invariant of
`EveryStepKeepsTheInvariant`, which rests on the spec's decision D3 (log entry 4: `pc` after a HLT or an
invalid word) and on the model's canonical form of memory (log entry 16, DESIGN CHOICE). -/
def Obligations.EveryReachableStateMeetsTheInvariant : Prop :=
  ∀ s, Reachable s → State.Inv s

/-- The build is chosen when the block is built: no command writes it (R2; log entry 1). A base build never
enters a character suspension and its flag is never set (R24, R25). -/
def Obligations.ABaseBuildStaysWithoutExtendedMode : Prop :=
  (∀ c s, (after c s).cfg = s.cfg) ∧
  (∀ s, Reachable s → s.cfg.extendedBuild = false →
    s.ext = false ∧ (readState s).ext = false ∧ s.state ≠ .awaitingCharInput ∧
    s.state ≠ .awaitingCharOutput)

/-- The memory's form is canonical: two memories in the form that read the same are the same data (the
model's own choice of form; R28, R29 say what it holds). -/
def Obligations.MemoriesThatReadTheSameAreEqual : Prop :=
  ∀ m n : Memory, m.wf = true → n.wf = true → (∀ a, m.read a = n.read a) → m = n

/-! ### Host commands -/

/-- `input` and `input_char` (R167, R169): each in its own state. The frame is the spec's decision D4. -/
def Obligations.InputCommandsCompleteTheirInstruction : Prop :=
  (∀ (v : Word) s, s.state = .awaitingInput → input v s = .ok { s with acc := v, state := .running }) ∧
  (∀ (v : Word) s, s.state = .awaitingCharInput →
    inputChar v s = .ok { s with acc := v, state := .running })

/-- `output` and `output_char` (R168, R170): the value returned is `acc`, which is kept unless
`OUTPUT_CLEARS_ACC` (the spec's decision D5, a parameter). -/
def Obligations.OutputCommandsReturnTheAccumulator : Prop :=
  (∀ s, s.state = .awaitingOutput → ∃ v : Word, v = (if s.cfg.outputClearsAcc then 0 else s.acc) ∧
    output s = .ok (s.acc, { s with acc := v, state := .running })) ∧
  (∀ s, s.state = .awaitingCharOutput → ∃ v : Word, v = (if s.cfg.outputClearsAcc then 0 else s.acc) ∧
    outputChar s = .ok (s.acc, { s with acc := v, state := .running }))

/-- R227: an I/O command in the wrong state fails with its error, and a command that fails changes nothing. -/
def Obligations.AnIoCommandInTheWrongStateFails : Prop :=
  (∀ (v : Word) s, s.state ≠ .awaitingInput → perform (.input v) s = .error .unexpectedInput) ∧
  (∀ (v : Word) s, s.state ≠ .awaitingCharInput → perform (.inputChar v) s = .error .unexpectedInput) ∧
  (∀ s, s.state ≠ .awaitingOutput → perform .output s = .error .unexpectedOutput) ∧
  (∀ s, s.state ≠ .awaitingCharOutput → perform .outputChar s = .error .unexpectedOutput) ∧
  (∀ c s e, perform c s = .error e → after c s = s)

/-- INP and its input, end to end (R160, R161, R167): the value arrives in `acc`, execution goes on at the
next word, and steps issued meanwhile change nothing. That `neg` is unchanged is the spec's decision D4. -/
def Obligations.InpThenInputLoadsTheAccumulator : Prop :=
  ∀ s a w, RunningAt s a w → w.val = 901 →
    ∃ t, step s = .next t ∧ step t = .next t ∧
      ∀ v : Word, input v t = .ok { s with pc := nextPc a, acc := v }

/-- OUT and its output, end to end (R162, R168): the value is `acc` at the OUT, and with
`OUTPUT_CLEARS_ACC` false (the spec's decision D5) nothing but `pc` has changed. -/
def Obligations.OutThenOutputReturnsTheAccumulator : Prop :=
  ∀ s a w, RunningAt s a w → w.val = 902 →
    ∃ t u, step s = .next t ∧ step t = .next t ∧ output t = .ok (s.acc, u) ∧
      (s.cfg.outputClearsAcc = false → u = { s with pc := nextPc a })

/-- `reset()` (R272), in every state; that memory keeps its current words and `ext` is cleared are the
spec's decisions D8 and D9. -/
def Obligations.ResetClearsTheRegistersAndKeepsMemory : Prop :=
  ∀ s, perform .reset s =
    .ok (.done, { s with pc := 0, acc := 0, neg := false, ext := false, state := .running })

/-- `load(image)` and `dump()` (R223, R224; the spec's decisions D11 and D12): the image is what every
address then reads and what a dump returns, and every register is at its reset value. That the build
parameters are kept is the model's choice (log entry 11, DESIGN CHOICE), and so is the canonical form that
the memory then has (log entry 16, DESIGN CHOICE). -/
def Obligations.LoadPutsTheImageInMemory : Prop :=
  ∀ (img : Image) s, ∃ t, perform (.load img) s = .ok (.done, t) ∧
    t = { s with mem := t.mem, pc := 0, acc := 0, neg := false, ext := false, state := .running } ∧
    (∀ a : Addr, t.mem.read a = img.get a) ∧ t.mem.wf = true ∧ perform .dump t = .ok (.words img, t)

/-- `load_bytes(P)` (R225; the spec's decision D11), for a packed image and for a buffer that the unpacker
rejects. -/
def Obligations.LoadBytesLoadsAPackedImageOrChangesNothing : Prop :=
  (∀ (img : Image) s, after (.loadBytes (pack img)) s = after (.load img) s) ∧
  (∀ P e s, unpack P = .error e →
    perform (.loadBytes P) s = .error (.codec e) ∧ after (.loadBytes P) s = s)

/-- R253: terminal states are absorbing. No step and no run changes anything, every I/O command fails, and
only a reset or a load leaves one. -/
def Obligations.TerminalStatesAreAbsorbing : Prop :=
  ∀ s, s.state.terminal = true →
    step s = .next s ∧ (∀ t, Runs s t ↔ t = s) ∧
    (∀ v, input v s = .error .unexpectedInput ∧ inputChar v s = .error .unexpectedInput) ∧
    output s = .error .unexpectedOutput ∧ outputChar s = .error .unexpectedOutput ∧
    (∀ c, after c s ≠ s → c = .reset ∨ (∃ img, c = .load img) ∨ (∃ P, c = .loadBytes P)) ∧
    (reset s).state = .running ∧ (∀ img, (load img s).state = .running)

/-- R222: a run returns in a state that is not Running, reached by steps alone; there is at most one; a
block that is not Running is returned at once. -/
def Obligations.RunStepsUntilTheBlockLeavesRunning : Prop :=
  (∀ s t, Runs s t → t.state ≠ .running ∧ ∃ n, Host.Core.run Sys2Proof.core n s = .next t) ∧
  (∀ s t u, Runs s t → Runs s u → t = u) ∧
  (∀ s, s.state ≠ .running → ∀ t, Runs s t ↔ t = s) ∧
  (∀ s t u, s.state = .running → step s = .next t → (Runs s u ↔ Runs t u))

/-- R111: the block has no internal bound. Where a BR to its own address is about to be fetched, the block
is Running after every number of steps, and a run never returns. -/
def Obligations.ABranchToItselfRunsForever : Prop :=
  ∀ s a w, RunningAt s a w → w.val = 600 + a.val →
    (∀ n, Host.Core.run Sys2Proof.core n s = .next s) ∧ ∀ t, ¬ Runs s t

/-- Placing a word of the opcode table where the next step fetches makes that step run the table's
instruction (the model's own interface, log entry 3). -/
def Obligations.APlacedTableWordIsRunByTheNextStep : Prop :=
  ∀ (s : State) nbits n i, decodeTableWord nbits n = some i →
    ∃ a : Addr, (s.pc.val < 100 → a.val = s.pc.val) ∧ (s.pc.val = 100 → a.val = 0) ∧
      (s.withFetchWord nbits n).pc.val = a.val ∧
      (∀ b, b ≠ a → (s.withFetchWord nbits n).mem.read b = s.mem.read b) ∧
      step (s.withFetchWord nbits n) = exec i { s.withFetchWord nbits n with pc := nextPc a }

/-! ### The binary codec -/

/-- R200: the round trip, the all-zero image, and the all-1 image. -/
def Obligations.UnpackOfPackIsTheImage : Prop :=
  (∀ img : Image, unpack (pack img) = .ok img) ∧
  pack (Vector.replicate 100 0) = [] ∧ (pack (Vector.replicate 100 1)).length = codecMaxBytes

/-- The converse (R200's derived clause): a buffer is the packed form of what it unpacks to exactly when it
has no trailing zero byte. -/
def Obligations.PackOfUnpackIsTheBufferWithoutTrailingZeros : Prop :=
  ∀ P img, unpack P = .ok img → (pack img = P ↔ P.getLast? ≠ some 0)

/-- R192, an inference of the spec: the 125 bytes are one stream, most significant bit first, field `k` at
stream bits `10k .. 10k+9`. -/
def Obligations.PackedBytesAreTheMsbFirstStream : Prop :=
  ∀ (img : Image) (k : Addr) (t : Fin 10),
    (packFields img.toList).length = codecMaxBytes ∧
    ((packFields img.toList).getD ((10 * k.val + t.val) / 8) 0).getLsbD (7 - (10 * k.val + t.val) % 8) =
      (fieldOf (img.get k)).getLsbD (9 - t.val)

/-- The source's packing loop (R193) and the closed form (R194, an inference of the spec) give the same
bytes. -/
def Obligations.TheSourcesPackingLoopGivesTheSameBytes : Prop :=
  ∀ img : Image, packBySource img = pack img

/-- R195: the packed form is the 125 bytes less their trailing zero bytes. -/
def Obligations.PackTrimsExactlyTheTrailingZeroBytes : Prop :=
  ∀ img : Image, (packFields img.toList).length = 125 ∧
    ∃ z, packFields img.toList = pack img ++ List.replicate z 0 ∧ (pack img).getLast? ≠ some 0 ∧
      (pack img).length ≤ 125

/-- R197 and R198, with the order of the checks and the least index (the spec's decision D14): which buffers
are rejected, and how. -/
def Obligations.UnpackRejectsWithTheseErrorsExactly : Prop :=
  ∀ P, (125 < P.length → unpack P = .error (.bufferTooLarge P.length)) ∧
    (P.length ≤ 125 → ∀ k f, unpack P = .error (.invalidNumber k f) ↔
      k < 100 ∧ f = unpackField P k ∧ 999 < f ∧ ∀ j, j < k → unpackField P j ≤ 999) ∧
    (P.length ≤ 125 → (∀ k, k < 100 → unpackField P k ≤ 999) →
      ∃ img, unpack P = .ok img ∧ ∀ k : Addr, (img.get k).val = unpackField P k.val)

/-! ### Surrounding software -/

/-- R232, an inference of the spec (the harness is outside the hardware, 00_scope.md R4): a test passes
within its budget, and a budget error comes at exactly `max_cycles`. -/
def Obligations.TheHarnessKeepsItsCycleBudget : Prop :=
  ∀ codec t s,
    (∀ n, runTest codec t s = .ok n → 1 ≤ n ∧ n ≤ t.maxCycles) ∧
    (∀ name n, runTest codec t s = .error (.runOutOfCycles name n) → name = t.name ∧ n = t.maxCycles)
end

