-- ==== Sys2Proof/Machine/Text.lean ====
section
/-! DEFINITION. Reading source text: lines, words, decimal numbers, and the left-to-right pass over lines.
Surrounding software alone reads text (00_scope.md R4): the numeral assembler (30_encoding.md R79) and the
test script (48_host_interface.md R229). -/

namespace Sys2Proof.Machine

/-- A fault tagged with the 1-based number of the line or instruction that has it (R76). -/
structure Numbered (ε : Type) where
  number : Nat
  reason : ε
deriving DecidableEq, Repr

/-- The single left-to-right pass (R76): `check k x` gives the result of the line at position `k`, or its
fault, and the first offending line ends the pass with no partial result. -/
def passLines {α β ε : Type} (check : Nat → α → Except ε β) :
    List α → Nat → Except (Numbered ε) (List β)
  | [], _ => .ok []
  | x :: xs, k =>
    match check k x with
    | .error e => .error ⟨k + 1, e⟩
    | .ok b => (passLines check xs (k + 1)).map fun bs => b :: bs

/-- The lines of a text; a newline ends a line (DEDUCED, log entry 13). -/
def linesOf (text : List Char) : List (List Char) := text.splitOnP (· = '\n')

/-- Which characters are whitespace. The spec says only "whitespace-separated" (R72). DESIGN CHOICE (log
entry 13): space, tab, carriage return and line feed, and no other, so a lone carriage return separates
words and any other Unicode space is part of a word. -/
def isSpace (c : Char) : Bool := c = ' ' || c = '\t' || c = '\r' || c = '\n'

/-- The whitespace-separated words (R72). -/
def wordsOf (cs : List Char) : List (List Char) := (cs.splitOnP isSpace).filter fun w => !w.isEmpty

/-- The number that a word writes in decimal: one or more digits 0 to 9, nothing else (DEDUCED, log entry
13). -/
def decimalLiteral (w : List Char) : Option Nat :=
  if !w.isEmpty && w.all Char.isDigit then
    some (w.foldl (fun n c => 10 * n + (c.toNat - '0'.toNat)) 0)
  else none

end Sys2Proof.Machine
end

