-- ==== Sys2Proof/Machine/Assembler.lean ====
section
/-! DEFINITION. The assemblers (30_encoding.md R69, R70, R73 to R79): the mnemonic assembler from parsed
lines to a memory image, the numeral assembler from its source text. They are surrounding software
(00_scope.md R4), modelled as the boundary that makes images; no rule of the block depends on them. The
text side of the mnemonic assembler (R71, R72) is out of scope. -/

namespace Sys2Proof.Machine

/-- A mnemonic, aliases merged (R69, R80). INA, OTA and EXT are recognised only in an extended build
(R81). -/
inductive Mnemonic where
  | add | sub | sto | lda | br | brz | brp | inp | out | hlt | dat | ina | ota | ext
deriving DecidableEq, Repr

/-- The base code (R69). HLT's internal tag 1 never reaches memory (R70, R183). -/
def Mnemonic.baseCode : Mnemonic → Nat
  | .add => 100
  | .sub => 200
  | .sto => 300
  | .lda => 500
  | .br => 600
  | .brz => 700
  | .brp => 800
  | .inp => 901
  | .out => 902
  | .hlt => 0
  | .dat => 0
  | .ina => 911
  | .ota => 912
  | .ext => 10

/-- The instructions that need an operand address (R73); DAT is treated on its own. -/
def Mnemonic.takesAddress : Mnemonic → Bool
  | .add | .sub | .sto | .lda | .br | .brz | .brp => true
  | .inp | .out | .hlt | .dat | .ina | .ota | .ext => false

/-- An operand: a decimal literal or a label reference (R72). -/
inductive AsmOperand where
  | literal (n : Nat)
  | label (l : String)
deriving DecidableEq, Repr

/-- A line that produces an instruction (R74). -/
structure ParsedLine where
  label : Option String
  mnemonic : Mnemonic
  operand : Option AsmOperand
deriving DecidableEq, Repr

/-- The assemblers' errors (R73 to R79). The spec gives their names; what each carries it does not give
(91_not_in_source.md N17), but for `RangeError(n)` (R120). DESIGN CHOICE (log entry 13): the label errors
carry the label, `addressTooLarge` the literal, `malformedValue` the line's words, and the other errors
nothing beside the number of `AsmError`. -/
inductive AsmFault where
  /-- `ExpectedData` (R73); carries nothing (DESIGN CHOICE). -/
  | expectedData
  /-- `UnexpectedData` (R73); carries nothing (DESIGN CHOICE). -/
  | unexpectedData
  /-- `MultipleAssignment` (R74); carries the label (DESIGN CHOICE). -/
  | multipleAssignment (l : String)
  /-- `UnknownLabel` (R75); carries the label (DESIGN CHOICE). -/
  | unknownLabel (l : String)
  /-- `AddressTooLarge` (R75); carries the literal (DESIGN CHOICE). -/
  | addressTooLarge (n : Nat)
  /-- `RangeError(n)` (R75, R79, R120). -/
  | range (e : RangeError)
  /-- The malformed value of R79: a non-blank numeral line that is not exactly one decimal literal. The spec
  gives the error no name: its name, and the words of the line that it carries, are a DESIGN CHOICE. -/
  | malformedValue (words : List (List Char))
  /-- `TooManyInstructions` (R78); carries nothing (DESIGN CHOICE). -/
  | tooManyInstructions
  /-- `TooManyLines` (R78); carries nothing (DESIGN CHOICE). -/
  | tooManyLines
deriving DecidableEq, Repr

/-- An error tagged with the 1-based line or instruction number (R76): the instruction number in the
mnemonic assembler, the line number in the numeral assembler (R79; the first is DEDUCED, log entry 13). -/
abbrev AsmError := Numbered AsmFault

/-- First pass: label to address bindings, address = position of the line, in line order (R74); a lookup
finds a label's first definition. A second definition is the offence of its own line (`lineCheck`). -/
def collectLabels : List ParsedLine → Nat → List (String × Nat)
  | [], _ => []
  | p :: ps, k =>
    match p.label with
    | none => collectLabels ps (k + 1)
    | some l => (l, k) :: collectLabels ps (k + 1)

/-- The line at position `k` defines a label that an earlier line has defined (R74). -/
def duplicateLabel (bound : List (String × Nat)) (k : Nat) (p : ParsedLine) : Option String :=
  p.label.filter fun l => decide (bound.lookup l ≠ some k)

/-- An operand's number: a label through the first pass, a literal below the limit (R75). -/
def resolve (bound : List (String × Nat)) (tooLarge : Nat → Option AsmFault) :
    AsmOperand → Except AsmFault Nat
  | .label l =>
    match bound.lookup l with
    | some a => .ok a
    | none => .error (.unknownLabel l)
  | .literal n =>
    match tooLarge n with
    | some e => .error e
    | none => .ok n

/-- A literal address of 100 or more (R75). -/
def addressLimit (n : Nat) : Option AsmFault := if 100 ≤ n then some (.addressTooLarge n) else none

/-- A DAT literal of 1000 or more (R75, R120). -/
def datLimit (n : Nat) : Option AsmFault := if 1000 ≤ n then some (.range ⟨n⟩) else none

/-- The word of one line (R69, R73, R75); `datOptional` is `DAT_OPERAND_OPTIONAL` (log entry 13). -/
def lineWord (datOptional : Bool) (bound : List (String × Nat)) (p : ParsedLine) : Except AsmFault Word :=
  let code := p.mnemonic.baseCode
  if p.mnemonic.takesAddress then
    match p.operand with
    | none => .error .expectedData
    | some o => (resolve bound addressLimit o).map fun n => Fin.ofNat 1000 (code + n)
  else if p.mnemonic = .dat then
    match p.operand with
    | none => if datOptional then .ok 0 else .error .expectedData
    | some o => (resolve bound datLimit o).map fun n => Fin.ofNat 1000 n
  else
    match p.operand with
    | none => .ok (Fin.ofNat 1000 code)
    | some _ => .error .unexpectedData

/-- What the line at position `k` gives or how it offends: it is past the hundredth (R78), it repeats a
label (R74), or its operand is wrong (R73, R75). Which of these is reported when one line offends in
several ways is a DESIGN CHOICE (log entry 13). -/
def lineCheck (datOptional : Bool) (bound : List (String × Nat)) (k : Nat) (p : ParsedLine) :
    Except AsmFault Word :=
  if 100 ≤ k then .error .tooManyInstructions
  else
    match duplicateLabel bound k p with
    | some l => .error (.multipleAssignment l)
    | none => lineWord datOptional bound p

/-- The image of the given words, at addresses from 0; unused trailing words are zero (R77, R84). -/
def imageOf (ws : List Word) : Image := Vector.ofFn fun a => ws.getD a.val 0

/-- The mnemonic assembler on its parsed lines (R74 to R78): the labels of all lines, then the pass that
reports the first offending line (R76). -/
def assemble (datOptional : Bool) (lines : List ParsedLine) : Except AsmError Image :=
  (passLines (lineCheck datOptional (collectLabels lines 0)) lines 0).map imageOf

/-- A line of a numeral source (R79): blank or comment-only, one decimal literal of any size, or malformed,
with its words. -/
inductive NumeralLine where
  | blank
  | literal (n : Nat)
  | malformed (words : List (List Char))
deriving DecidableEq, Repr

/-- The words of a line, after the comment that `#` or `;` starts is stripped (R71, R72; that the numeral
source has the same comments and the same separation is DEDUCED, and which characters separate is the choice
of `isSpace`, log entry 13). -/
def lineWords (line : List Char) : List (List Char) :=
  wordsOf (line.takeWhile fun c => c ≠ '#' && c ≠ ';')

/-- A line of a numeral source as R79 reads it: "each either blank/comment or exactly one decimal literal",
and malformed otherwise. -/
def readNumeralLine (line : List Char) : NumeralLine :=
  match lineWords line with
  | [] => .blank
  | w :: ws =>
    match decimalLiteral w, ws with
    | some n, [] => .literal n
    | _, _ => .malformed (w :: ws)

/-- What a numeral line gives: nothing for a blank or comment-only line, its numeral, or an out-of-range or
malformed value's error (R79). -/
def numeralOf : NumeralLine → Except AsmFault (Option Word)
  | .blank => .ok none
  | .malformed ws => .error (.malformedValue ws)
  | .literal n =>
    match tryFrom n with
    | .error e => .error (.range e)
    | .ok w => .ok (some w)

/-- What the line at position `k` of a numeral source gives, or how it offends: it is the 101st or a later
non-blank line (R78), or its value is wrong (R79). That a line which offends in both ways reports the first
is a DESIGN CHOICE (log entry 13). -/
def numeralCheck (lines : List NumeralLine) (k : Nat) (line : NumeralLine) :
    Except AsmFault (Option Word) :=
  if line ≠ .blank ∧ 100 ≤ (lines.take k).countP (· ≠ .blank) then .error .tooManyLines
  else numeralOf line

/-- The numeral assembler on its lines (R77 to R79); the first offending line is reported (R76), with its
1-based line number (R79). -/
def assembleNumerals (lines : List NumeralLine) : Except AsmError Image :=
  (passLines (numeralCheck lines) lines 0).map fun ws => imageOf (ws.filterMap id)

/-- The numeral assembler on its source text (R79). -/
def assembleNumeralText (text : List Char) : Except AsmError Image :=
  assembleNumerals ((linesOf text).map readNumeralLine)

end Sys2Proof.Machine
end

