-- ==== Sys2Proof/Laws/Assembler.lean ====
section
/-! SUPPORT. What the left-to-right pass over lines can answer (30_encoding.md R76), and when a
numeral line has a word (R79). -/

namespace Sys2Proof.Machine

variable {α β ε : Type} (check : Nat → α → Except ε β)

/-- An error is that of the first offending line, with its 1-based number: every line before it passes. -/
theorem passLines_error {xs : List α} {k : Nat} {err : Numbered ε} (h : passLines check xs k = .error err) :
    ∃ j x, xs[j]? = some x ∧ check (k + j) x = .error err.reason ∧ err.number = k + j + 1 ∧
      ∀ i y, i < j → xs[i]? = some y → ∃ b, check (k + i) y = .ok b := by
  induction xs generalizing k with
  | nil => simp [passLines] at h
  | cons x xs ih =>
    cases hx : check k x with
    | error e =>
      simp only [passLines, hx, Except.error.injEq] at h
      subst h
      exact ⟨0, x, rfl, hx, rfl, fun i y hi => absurd hi (Nat.not_lt_zero i)⟩
    | ok b =>
      cases hr : passLines check xs (k + 1) with
      | ok bs => simp [passLines, hx, hr, Except.map] at h
      | error e =>
        simp only [passLines, hx, hr, Except.map, Except.error.injEq] at h
        subst h
        obtain ⟨j, y, hy, hc, hn, hb⟩ := ih hr
        refine ⟨j + 1, y, by simpa using hy, by rw [← hc]; congr 1; omega, by omega, ?_⟩
        rintro (_ | i) z hi hz
        · simp only [List.getElem?_cons_zero, Option.some.injEq] at hz
          exact ⟨b, hz ▸ hx⟩
        · obtain ⟨c, hc⟩ := hb i z (by omega) (by simpa using hz)
          exact ⟨c, by rw [← hc]; congr 1; omega⟩

/-- A result holds one entry for each line, and no line offends. -/
theorem passLines_ok {xs : List α} {k : Nat} {bs : List β} (h : passLines check xs k = .ok bs) :
    bs.length = xs.length ∧ ∀ i x, xs[i]? = some x → ∃ b, bs[i]? = some b ∧ check (k + i) x = .ok b := by
  induction xs generalizing k bs with
  | nil =>
    simp only [passLines, Except.ok.injEq] at h
    subst h
    simp
  | cons x xs ih =>
    cases hx : check k x with
    | error e => simp [passLines, hx] at h
    | ok b =>
      cases hr : passLines check xs (k + 1) with
      | error e => simp [passLines, hx, hr, Except.map] at h
      | ok cs =>
        simp only [passLines, hx, hr, Except.map, Except.ok.injEq] at h
        subst h
        obtain ⟨hl, hall⟩ := ih hr
        refine ⟨by simp [hl], ?_⟩
        rintro (_ | i) y hy
        · simp only [List.getElem?_cons_zero, Option.some.injEq] at hy
          exact ⟨b, rfl, hy ▸ hx⟩
        · obtain ⟨c, hc, hk⟩ := hall i y (by simpa using hy)
          exact ⟨c, by simpa using hc, by rw [← hk]; congr 1; omega⟩

/-- A numeral line passes only if it is blank, or one literal in 0..999, whose word it then is (R79). -/
theorem numeralOf_ok {line : NumeralLine} {r : Option Word} (h : numeralOf line = .ok r) :
    (line = .blank ∧ r = none) ∨ ∃ w : Word, line = .literal w.val ∧ r = some w := by
  match line with
  | .blank => simp_all [numeralOf]
  | .malformed ws => simp [numeralOf] at h
  | .literal n =>
    simp only [numeralOf, tryFrom] at h
    split at h
    · cases h
    · rename_i w hw
      split at hw
      · cases h; cases hw; exact .inr ⟨_, rfl, rfl⟩
      · cases hw

/-- A numeral line past the limit does not pass unless it is blank (R78). -/
theorem numeralCheck_ok {lines : List NumeralLine} {k : Nat} {line : NumeralLine} {r : Option Word}
    (h : numeralCheck lines k line = .ok r) :
    numeralOf line = .ok r ∧ (line = .blank ∨ (lines.take k).countP (· ≠ .blank) < 100) := by
  unfold numeralCheck at h
  split at h
  · cases h
  · exact ⟨h, by grind⟩

end Sys2Proof.Machine
end

