-- ==== Sys2Proof/Laws/Codec.lean ====
section
/-! SUPPORT. What trimming and grouping do in the codec. -/

namespace Sys2Proof.Machine

/-- Trimming takes zero bytes off the end, and nothing else. -/
theorem trimZeros_append (l : List Byte) : ∃ z, l = trimZeros l ++ List.replicate z 0 := by
  induction l with
  | nil => exact ⟨0, rfl⟩
  | cons b l ih =>
    obtain ⟨z, hz⟩ := ih
    cases ht : trimZeros l with
    | nil =>
      have hl : l = List.replicate z 0 := by rw [ht] at hz; exact hz
      by_cases hb : b = 0
      · exact ⟨z + 1, by simp only [trimZeros, ht, hb, if_true, List.replicate_succ, ← hl]; rfl⟩
      · exact ⟨z, by simp only [trimZeros, ht, hb, if_false, ← hl]; rfl⟩
    | cons c cs =>
      exact ⟨z, by rw [ht] at hz; simp only [trimZeros, ht, List.cons_append, ← hz]⟩

/-- Trimming changes no byte as the unpacker reads it. -/
theorem byteAt_trimZeros (l : List Byte) (i : Nat) : byteAt (trimZeros l) i = byteAt l i := by
  obtain ⟨z, hz⟩ := trimZeros_append l
  conv => rhs; rw [hz]
  rcases Nat.lt_or_ge i (trimZeros l).length with h | h
  · simp [byteAt, List.getD_eq_getElem?_getD, List.getElem?_append, h]
  · simp only [byteAt, List.getD_eq_getElem?_getD, List.getElem?_append_right h,
      List.getElem?_eq_none h, List.getElem?_replicate]
    split <;> rfl

/-- Five bytes for every four words. -/
theorem length_packFields (n : Nat) (ws : List Word) (h : ws.length = 4 * n) :
    (packFields ws).length = 5 * n := by
  induction n generalizing ws with
  | zero => simp [List.length_eq_zero_iff.mp h, packFields]
  | succ n ih =>
    match ws, h with
    | w0 :: w1 :: w2 :: w3 :: ws, h =>
      simp only [packFields, packGroup, List.length_append, List.length_cons, List.length_nil]
      rw [ih ws (by simp at h; omega)]
      omega

end Sys2Proof.Machine
end

