-- ==== Sys2Proof/Laws/Memory.lean ====
section
/-! SUPPORT. The laws of memory: what a write leaves readable, and that every memory operation keeps
the canonical form. -/

namespace Sys2Proof.Machine

theorem Memory.lookup_filter_ne (m : Memory) {a b : Nat} (h : b ≠ a) :
    Memory.lookup (m.filter fun c => decide (c.1 ≠ a)) b = m.lookup b := by
  induction m with
  | nil => rfl
  | cons c m ih =>
    rcases c with ⟨k, v⟩
    by_cases hk : k = a
    · have : k ≠ b := fun e => h (e ▸ hk)
      simp_all [Memory.lookup]
    · simp [Memory.lookup, hk, ← ih]

theorem Memory.lookup_of_not_mem (m : Memory) {a : Nat} (h : ∀ c ∈ m, c.1 ≠ a) :
    m.lookup a = Memory.unlisted := by
  induction m with
  | nil => rfl
  | cons c m ih =>
    simp only [List.mem_cons, forall_eq_or_imp] at h
    simp [Memory.lookup, h.1, ih h.2]

theorem Memory.lookup_insertCell (m : Memory) (a b : Nat) (v : Word) (h : ∀ c ∈ m, c.1 ≠ a) :
    Memory.lookup (m.insertCell a v) b = if b = a then v else m.lookup b := by
  induction m with
  | nil => simp [Memory.insertCell, Memory.lookup, eq_comm]
  | cons c m ih =>
    rcases c with ⟨k, u⟩
    obtain ⟨hk, hm⟩ : k ≠ a ∧ ∀ c ∈ m, c.1 ≠ a := by simpa using h
    by_cases ha : a < k
    · simp [Memory.insertCell, Memory.lookup, ha, eq_comm]
    · simp only [Memory.insertCell, ha, if_false, Memory.lookup, ih hm]
      by_cases hkb : k = b
      · simp [hkb, hkb ▸ hk]
      · simp [hkb]

/-- A read after a write: the written word at its address, every other address as before. -/
theorem Memory.read_write (m : Memory) (a b : Addr) (v : Word) :
    (m.write a v).read b = if b = a then v else m.read b := by
  have hrest : ∀ c ∈ m.filter (fun c => decide (c.1 ≠ a.val)), c.1 ≠ a.val := by simp
  by_cases hv : v = Memory.unlisted <;> by_cases hb : b = a
  · subst hb
    simpa [Memory.write, Memory.read, hv] using Memory.lookup_of_not_mem _ hrest
  · simpa [Memory.write, Memory.read, hv, hb] using
      Memory.lookup_filter_ne m (fun e => hb (Fin.ext e))
  · subst hb
    simp only [Memory.write, Memory.read, hv, if_false, Memory.lookup_insertCell _ _ _ _ hrest, if_true]
  · have hb' : b.val ≠ a.val := fun e => hb (Fin.ext e)
    simp only [Memory.write, Memory.read, hv, if_false, hb,
      Memory.lookup_insertCell _ _ _ _ hrest, hb']
    exact Memory.lookup_filter_ne m hb'

/-- The canonical form as a proposition. -/
theorem Memory.wf_iff (m : Memory) :
    m.wf = true ↔ m.Pairwise (fun c d => c.1 < d.1) ∧ ∀ c ∈ m, c.1 < 100 ∧ c.2 ≠ Memory.unlisted := by
  simp [Memory.wf]

theorem Memory.mem_insertCell (m : Memory) (a : Nat) (v : Word) (c : Nat × Word) :
    c ∈ m.insertCell a v ↔ c = (a, v) ∨ c ∈ m := by
  induction m with
  | nil => simp [Memory.insertCell]
  | cons d m ih =>
    by_cases h : a < d.1
    · simp [Memory.insertCell, h]
    · simp only [Memory.insertCell, h, if_false, List.mem_cons, ih]
      tauto

theorem Memory.pairwise_insertCell (m : Memory) (a : Nat) (v : Word)
    (hm : m.Pairwise fun c d => c.1 < d.1) (h : ∀ c ∈ m, c.1 ≠ a) :
    (m.insertCell a v).Pairwise fun c d => c.1 < d.1 := by
  induction m with
  | nil => simp [Memory.insertCell]
  | cons d m ih =>
    rw [List.pairwise_cons] at hm
    simp only [List.mem_cons, forall_eq_or_imp] at h
    by_cases had : a < d.1
    · simp only [Memory.insertCell, had, if_true, List.pairwise_cons, List.mem_cons, forall_eq_or_imp]
      exact ⟨⟨trivial, fun c hc => had.trans (hm.1 c hc)⟩, hm.1, hm.2⟩
    · simp only [Memory.insertCell, had, if_false, List.pairwise_cons, Memory.mem_insertCell]
      refine ⟨?_, ih hm.2 h.2⟩
      rintro c (rfl | hc)
      · exact lt_of_le_of_ne (not_lt.mp had) h.1
      · exact hm.1 c hc

/-- A write keeps the canonical form. -/
theorem Memory.wf_write (m : Memory) (a : Addr) (v : Word) (h : m.wf = true) :
    (m.write a v).wf = true := by
  obtain ⟨hp, hall⟩ := (Memory.wf_iff m).mp h
  have hne : ∀ c ∈ m.filter (fun c => decide (c.1 ≠ a.val)), c.1 ≠ a.val := by simp
  have hp' := hp.filter (fun c => decide (c.1 ≠ a.val))
  have hall' : ∀ c ∈ m.filter (fun c => decide (c.1 ≠ a.val)), c.1 < 100 ∧ c.2 ≠ Memory.unlisted :=
    fun c hc => hall c (List.mem_of_mem_filter hc)
  rw [Memory.wf_iff]
  by_cases hv : v = Memory.unlisted
  · simpa only [Memory.write, hv, if_true] using ⟨hp', hall'⟩
  · simp only [Memory.write, hv, if_false]
    refine ⟨Memory.pairwise_insertCell _ _ _ hp' hne, fun c hc => ?_⟩
    rcases (Memory.mem_insertCell _ _ _ _).mp hc with rfl | hc
    · exact ⟨a.isLt, hv⟩
    · exact hall' c hc

/-- A loaded image is in the canonical form. -/
theorem Memory.wf_ofImage (img : Image) : (Memory.ofImage img).wf = true := by
  rw [Memory.wf_iff]
  constructor
  · refine List.Pairwise.filterMap _ ?_ (List.pairwise_lt_finRange 100)
    intro a b hab c hc d hd
    split at hc <;> simp at hc
    split at hd <;> simp at hd
    subst hc hd
    exact hab
  · intro c hc
    obtain ⟨a, -, ha⟩ := List.mem_filterMap.mp hc
    split at ha <;> simp at ha
    subst ha
    exact ⟨a.isLt, by assumption⟩

/-- Memory right after reset is in the canonical form. -/
theorem State.reset_mem_wf : State.reset.mem.wf = true := by decide

end Sys2Proof.Machine
end

