-- ==== Sys2Proof/Laws/State.lean ====
section
/-! SUPPORT. What each register write leaves in each field: one lemma per field per update. -/

namespace Sys2Proof.Machine

variable (s : State) (v : Word) (p : Pc) (b : Bool) (a : Addr) (c : CtrlState)

/-! `State.setAcc` -/

@[simp] theorem State.setAcc_cfg : (s.setAcc v).cfg = s.cfg := rfl
@[simp] theorem State.setAcc_mem : (s.setAcc v).mem = s.mem := rfl
@[simp] theorem State.setAcc_pc : (s.setAcc v).pc = s.pc := rfl
@[simp] theorem State.setAcc_acc : (s.setAcc v).acc = v := rfl
@[simp] theorem State.setAcc_neg : (s.setAcc v).neg = s.neg := rfl
@[simp] theorem State.setAcc_ext : (s.setAcc v).ext = s.ext := rfl
@[simp] theorem State.setAcc_state : (s.setAcc v).state = s.state := rfl

/-! `State.setPc` -/

@[simp] theorem State.setPc_cfg : (s.setPc p).cfg = s.cfg := rfl
@[simp] theorem State.setPc_mem : (s.setPc p).mem = s.mem := rfl
@[simp] theorem State.setPc_pc : (s.setPc p).pc = p := rfl
@[simp] theorem State.setPc_acc : (s.setPc p).acc = s.acc := rfl
@[simp] theorem State.setPc_neg : (s.setPc p).neg = s.neg := rfl
@[simp] theorem State.setPc_ext : (s.setPc p).ext = s.ext := rfl
@[simp] theorem State.setPc_state : (s.setPc p).state = s.state := rfl

/-! `State.setNeg` -/

@[simp] theorem State.setNeg_cfg : (s.setNeg b).cfg = s.cfg := rfl
@[simp] theorem State.setNeg_mem : (s.setNeg b).mem = s.mem := rfl
@[simp] theorem State.setNeg_pc : (s.setNeg b).pc = s.pc := rfl
@[simp] theorem State.setNeg_acc : (s.setNeg b).acc = s.acc := rfl
@[simp] theorem State.setNeg_neg : (s.setNeg b).neg = b := rfl
@[simp] theorem State.setNeg_ext : (s.setNeg b).ext = s.ext := rfl
@[simp] theorem State.setNeg_state : (s.setNeg b).state = s.state := rfl

/-! `State.setExt` -/

@[simp] theorem State.setExt_cfg : (s.setExt b).cfg = s.cfg := rfl
@[simp] theorem State.setExt_mem : (s.setExt b).mem = s.mem := rfl
@[simp] theorem State.setExt_pc : (s.setExt b).pc = s.pc := rfl
@[simp] theorem State.setExt_acc : (s.setExt b).acc = s.acc := rfl
@[simp] theorem State.setExt_neg : (s.setExt b).neg = s.neg := rfl
@[simp] theorem State.setExt_ext : (s.setExt b).ext = b := rfl
@[simp] theorem State.setExt_state : (s.setExt b).state = s.state := rfl

/-! `State.enter` -/

@[simp] theorem State.enter_cfg : (s.enter c).cfg = s.cfg := rfl
@[simp] theorem State.enter_mem : (s.enter c).mem = s.mem := rfl
@[simp] theorem State.enter_pc : (s.enter c).pc = s.pc := rfl
@[simp] theorem State.enter_acc : (s.enter c).acc = s.acc := rfl
@[simp] theorem State.enter_neg : (s.enter c).neg = s.neg := rfl
@[simp] theorem State.enter_ext : (s.enter c).ext = s.ext := rfl
@[simp] theorem State.enter_state : (s.enter c).state = c := rfl

/-! `State.setWord` -/

@[simp] theorem State.setWord_cfg : (s.setWord a v).cfg = s.cfg := rfl
@[simp] theorem State.setWord_mem : (s.setWord a v).mem = s.mem.write a v := rfl
@[simp] theorem State.setWord_pc : (s.setWord a v).pc = s.pc := rfl
@[simp] theorem State.setWord_acc : (s.setWord a v).acc = s.acc := rfl
@[simp] theorem State.setWord_neg : (s.setWord a v).neg = s.neg := rfl
@[simp] theorem State.setWord_ext : (s.setWord a v).ext = s.ext := rfl
@[simp] theorem State.setWord_state : (s.setWord a v).state = s.state := rfl

/-! `State.branchTo` and `State.enterInvalid`, over the updates above -/

@[simp] theorem State.branchTo_cfg : (s.branchTo a).cfg = s.cfg := rfl
@[simp] theorem State.branchTo_mem : (s.branchTo a).mem = s.mem := rfl
@[simp] theorem State.branchTo_pc : (s.branchTo a).pc = branchTarget a := rfl
@[simp] theorem State.branchTo_acc : (s.branchTo a).acc = s.acc := rfl
@[simp] theorem State.branchTo_neg : (s.branchTo a).neg = s.neg := rfl
@[simp] theorem State.branchTo_ext : (s.branchTo a).ext = s.ext := rfl
@[simp] theorem State.branchTo_state : (s.branchTo a).state = s.state := rfl

@[simp] theorem State.enterInvalid_cfg : s.enterInvalid.cfg = s.cfg := rfl
@[simp] theorem State.enterInvalid_mem : s.enterInvalid.mem = s.mem := rfl
@[simp] theorem State.enterInvalid_pc : s.enterInvalid.pc = s.pc := rfl
@[simp] theorem State.enterInvalid_acc : s.enterInvalid.acc = s.acc := rfl
@[simp] theorem State.enterInvalid_neg : s.enterInvalid.neg = s.neg := rfl
@[simp] theorem State.enterInvalid_ext : s.enterInvalid.ext = s.ext := rfl
@[simp] theorem State.enterInvalid_state : s.enterInvalid.state = .invalidInstruction := rfl

/-! The build parameters decide how the flag is read -/

@[simp] theorem State.extFlag_setPc : (s.setPc p).extFlag = s.extFlag := rfl
@[simp] theorem State.decodeWord_setPc (w : Word) : (s.setPc p).decodeWord w = s.decodeWord w := rfl
@[simp] theorem State.decodeWord_enter (w : Word) : (s.enter c).decodeWord w = s.decodeWord w := rfl
end Sys2Proof.Machine
end

