-- ==== Sys2Proof/Laws/Ops.lean ====
section
/-! SUPPORT. One lemma for each shared operation that says once everything it can do. -/

namespace Sys2Proof.Machine

/-- The next fetch address is the program counter, where that is below 100. -/
theorem State.fetchAddr_eq_some (s : State) (a : Addr) : s.fetchAddr = some a ↔ s.pc.val = a.val := by
  constructor
  · intro h
    simp only [State.fetchAddr] at h
    split at h <;> simp at h
    exact h ▸ rfl
  · intro h
    simp [State.fetchAddr, h]

theorem State.fetchAddr_eq_none (s : State) : s.fetchAddr = none ↔ s.pc.val = 100 := by
  simp only [State.fetchAddr]
  split <;> simp <;> omega

/-- A fetch from the address at the program counter. -/
theorem State.fetch_of_pc (s : State) (a : Addr) (h : s.pc.val = a.val) :
    s.fetch = some (s.mem.read a, s.setPc (nextPc a)) := by
  simp [State.fetch, (s.fetchAddr_eq_some a).mpr h]

theorem State.fetch_at_end (s : State) (h : s.pc.val = 100) : s.fetch = none := by
  simp [State.fetch, s.fetchAddr_eq_none.mpr h]

/-- Everything a step can do: nothing, stop at the end of memory, or execute the fetched word. -/
theorem step_cases {s t : State} (h : step s = .next t) :
    (s.state ≠ .running ∧ t = s) ∨
    (s.state = .running ∧ s.pc.val = 100 ∧ t = s.enter .reachedEnd) ∨
    (s.state = .running ∧ ∃ a : Addr, s.pc.val = a.val ∧
      exec (s.decodeWord (s.mem.read a)) (s.setPc (nextPc a)) = .next t) := by
  by_cases hr : s.state = .running
  · by_cases hp : s.pc.val = 100
    · simp only [step, hr, if_true, s.fetch_at_end hp] at h
      exact .inr (.inl ⟨hr, hp, by simpa using h.symm⟩)
    · have hlt : s.pc.val < 100 := by omega
      refine .inr (.inr ⟨hr, ⟨s.pc.val, hlt⟩, rfl, ?_⟩)
      simpa only [step, hr, if_true, s.fetch_of_pc ⟨s.pc.val, hlt⟩ rfl] using h
  · simp only [step, hr, if_false] at h
    exact .inl ⟨hr, by simpa using h.symm⟩

/-- The range check answers the numeral itself, or the number that is none. -/
theorem tryFrom_of_le {n : Nat} (h : n ≤ 999) : tryFrom n = .ok ⟨n, by omega⟩ := by simp [tryFrom, h]

theorem tryFrom_of_gt {n : Nat} (h : 999 < n) : tryFrom n = .error ⟨n⟩ := by
  simp [tryFrom, Nat.not_le.mpr h]

@[simp] theorem add_val (a b : Word) : (add a b).val = (a.val + b.val) % 1000 := rfl

@[simp] theorem subResult_val (a b : Word) : (subResult a b).val = (a.val + 1000 - b.val) % 1000 := rfl

@[simp] theorem opDigit_wordOf (op : Fin 10) (x : Addr) : opDigit (wordOf op x) = op.val := by
  simp only [opDigit, wordOf]
  omega

@[simp] theorem addrDigits_wordOf (op : Fin 10) (x : Addr) : addrDigits (wordOf op x) = x := by
  apply Fin.ext
  simp only [addrDigits, wordOf]
  omega

theorem wordOf_digits (w : Word) : wordOf ⟨w.val / 100, by omega⟩ (addrDigits w) = w := by
  apply Fin.ext
  simp only [addrDigits, wordOf]
  omega

/-- What a command leaves: its own state if it answers, the state before if it fails. -/
theorem after_cases (c : Command) (s : State) :
    (∃ r, perform c s = .ok r ∧ after c s = r.2) ∨ (∃ e, perform c s = .error e ∧ after c s = s) := by
  cases h : perform c s with
  | ok r => exact .inl ⟨r, rfl, by simp [after, h]⟩
  | error e => exact .inr ⟨e, rfl, by simp [after, h]⟩

end Sys2Proof.Machine
end

