-- ==== Sys2Proof/Laws/PerInstr.lean ====
section
/-! SUPPORT. The per-instruction family `EncodeInRow`: every well-formed instruction is encoded by a word
in the range that its row of spec/opcode_table.json gives it (for 911 and 912 outside extended mode: the
words the decode map of 30_encoding.md R64 lists as invalid). -/

namespace Sys2Proof.Laws

/-- The row's `match_range`. -/
def rowRange : Instr → Nat × Nat
  | .hlt _ => (0, 99)
  | .ext => (10, 10)
  | .add _ => (100, 199)
  | .sub _ => (200, 299)
  | .sto _ => (300, 399)
  | .invalid4xx _ => (400, 499)
  | .lda _ => (500, 599)
  | .br _ => (600, 699)
  | .brz _ => (700, 799)
  | .brp _ => (800, 899)
  | .invalid900 => (900, 900)
  | .inp => (901, 901)
  | .out => (902, 902)
  | .invalid903 _ => (903, 910)
  | .ina => (911, 911)
  | .ota => (912, 912)
  | .invalid913 _ => (913, 999)
  | .invalidGated _ => (911, 912)

def EncodeInRow.Statement (i : Instr) : Prop :=
  ∀ b e, i.wf b e = true → (rowRange i).1 ≤ (encode i).val ∧ (encode i).val ≤ (rowRange i).2

/-- The word of a format with digits: its hundred, its digits. -/
theorem wordOf_val (op : Fin 10) (x : Addr) : (wordOf op x).val = 100 * op.val + x.val := rfl

/-- A format whose row is the whole hundred. -/
theorem in_hundred (op : Fin 10) (x : Addr) :
    100 * op.val ≤ (wordOf op x).val ∧ (wordOf op x).val ≤ 100 * op.val + 99 := by
  rw [wordOf_val]
  omega

theorem EncodeInRow.hlt (x : Addr) : EncodeInRow.Statement (.hlt x) := by
  intro b e _; exact in_hundred 0 x

theorem EncodeInRow.add (a : Addr) : EncodeInRow.Statement (.add a) := by
  intro b e _; exact in_hundred 1 a

theorem EncodeInRow.sub (a : Addr) : EncodeInRow.Statement (.sub a) := by
  intro b e _; exact in_hundred 2 a

theorem EncodeInRow.sto (a : Addr) : EncodeInRow.Statement (.sto a) := by
  intro b e _; exact in_hundred 3 a

theorem EncodeInRow.invalid4xx (x : Addr) : EncodeInRow.Statement (.invalid4xx x) := by
  intro b e _; exact in_hundred 4 x

theorem EncodeInRow.lda (a : Addr) : EncodeInRow.Statement (.lda a) := by
  intro b e _; exact in_hundred 5 a

theorem EncodeInRow.br (a : Addr) : EncodeInRow.Statement (.br a) := by
  intro b e _; exact in_hundred 6 a

theorem EncodeInRow.brz (a : Addr) : EncodeInRow.Statement (.brz a) := by
  intro b e _; exact in_hundred 7 a

theorem EncodeInRow.brp (a : Addr) : EncodeInRow.Statement (.brp a) := by
  intro b e _; exact in_hundred 8 a

theorem EncodeInRow.ext : EncodeInRow.Statement .ext := by
  intro b e _; exact ⟨by decide, by decide⟩

theorem EncodeInRow.invalid900 : EncodeInRow.Statement .invalid900 := by
  intro b e _; exact ⟨by decide, by decide⟩

theorem EncodeInRow.inp : EncodeInRow.Statement .inp := by
  intro b e _; exact ⟨by decide, by decide⟩

theorem EncodeInRow.out : EncodeInRow.Statement .out := by
  intro b e _; exact ⟨by decide, by decide⟩

theorem EncodeInRow.ina : EncodeInRow.Statement .ina := by
  intro b e _; exact ⟨by decide, by decide⟩

theorem EncodeInRow.ota : EncodeInRow.Statement .ota := by
  intro b e _; exact ⟨by decide, by decide⟩

theorem EncodeInRow.invalid903 (f : Addr) : EncodeInRow.Statement (.invalid903 f) := by
  intro b e h
  simp [Instr.wf] at h
  simp only [rowRange, encode, wordOf_val]
  omega

theorem EncodeInRow.invalid913 (f : Addr) : EncodeInRow.Statement (.invalid913 f) := by
  intro b e h
  simp [Instr.wf] at h
  simp only [rowRange, encode, wordOf_val]
  omega

theorem EncodeInRow.invalidGated (f : Addr) : EncodeInRow.Statement (.invalidGated f) := by
  intro b e h
  simp [Instr.wf] at h
  simp only [rowRange, encode, wordOf_val]
  omega

end Sys2Proof.Laws
end

