-- ==== Sys2Proof/Machine/TestScript.lean ====
section
/-! DEFINITION. The test-script format (48_host_interface.md R229), from its text to test cases. It is
surrounding software (00_scope.md R4). What 91_not_in_source.md N18 says the source leaves open (escapes,
whitespace, empty fields), and every error, is a DESIGN CHOICE (log entry 21). -/

namespace Sys2Proof.Machine

/-- What is wrong with a line of a script. The spec names no such error: a DESIGN CHOICE (log entry 21). -/
inductive ScriptFault where
  /-- The line has another number of fields than the format. -/
  | fieldCount (n : Nat)
  /-- Not a decimal number where the format has one. -/
  | malformedNumber (text : List Char)
  /-- An expected value of 1000 or more, which is no numeral (R120). -/
  | range (e : RangeError)
deriving DecidableEq, Repr

abbrev ScriptError := Numbered ScriptFault

/-- A decimal number of a script (R229); whitespace around it is ignored (N18, DESIGN CHOICE, log entry
21). -/
def scriptNumber (cs : List Char) : Except ScriptFault Nat :=
  match (wordsOf cs).map decimalLiteral with
  | [some n] => .ok n
  | _ => .error (.malformedNumber cs)

/-- An expected input or output: a decimal number in 0..999 (R229, R120). -/
def scriptValue (cs : List Char) : Except ScriptFault Word := do
  match tryFrom (← scriptNumber cs) with
  | .ok w => .ok w
  | .error e => .error (.range e)

/-- "comma-separated expected inputs" or outputs (R229): every comma separates. A blank field is the empty
sequence, and an empty entry among others is malformed (N18, DESIGN CHOICE, log entry 21). -/
def scriptValues (field : List Char) : Except ScriptFault (List Word) :=
  if field.all isSpace then .ok [] else (field.splitOnP (· = ',')).mapM scriptValue

/-- The test case of the given fields, in the format's order (R229). The name and the two character
strings are literal: every character of the field counts. -/
def testCaseOf (name inputs outputs charInputs charOutputs maxCycles : List Char) :
    Except ScriptFault TestCase := do
  let ins ← scriptValues inputs
  let outs ← scriptValues outputs
  let cycles ← scriptNumber maxCycles
  .ok { name := String.ofList name, inputs := ins, outputs := outs, charInputs := charInputs,
        charOutputs := charOutputs, maxCycles := cycles }

/-- One line of a script (R229): its `;`-delimited fields, four in a base build and six in an extended one;
every `;` delimits. A blank line holds no test (N18, DESIGN CHOICE, log entry 21). -/
def readTestLine (extended : Bool) (line : List Char) : Except ScriptFault (Option TestCase) :=
  if line.all isSpace then .ok none
  else
    match extended, line.splitOnP (· = ';') with
    | false, [nm, ins, outs, cycles] => (testCaseOf nm ins outs [] [] cycles).map some
    | true, [nm, ins, outs, cin, cout, cycles] => (testCaseOf nm ins outs cin cout cycles).map some
    | _, fields => .error (.fieldCount fields.length)

/-- A whole script, "one test per line" (R229). The first wrong line is reported, with no partial result
(DESIGN CHOICE, log entry 21). -/
def readScript (extended : Bool) (text : List Char) : Except ScriptError (List TestCase) :=
  (passLines (fun _ line => readTestLine extended line) (linesOf text) 0).map (·.filterMap id)

end Sys2Proof.Machine
end

