-- ==== Sys2Proof/Laws/TestScript.lean ====
section
/-! SUPPORT. What reading a line of a test script can answer (48_host_interface.md R229). -/

namespace Sys2Proof.Machine

/-- A test comes from a line with the format's number of fields, and only an extended line fills the
character queues. -/
theorem readTestLine_ok {extended : Bool} {line : List Char} {t : TestCase}
    (h : readTestLine extended line = .ok (some t)) :
    (line.splitOnP (· = ';')).length = (if extended then 6 else 4) ∧
      (extended = false → t.charInputs = [] ∧ t.charOutputs = []) := by
  unfold readTestLine at h
  split at h
  · cases h
  · split at h
    · rename_i nm ins outs cycles he
      refine ⟨by simp [he], fun _ => ?_⟩
      simp only [testCaseOf, bind, Except.bind, Except.map] at h
      grind
    · rename_i he
      exact ⟨by simp [he], fun hf => by cases hf⟩
    · cases h

end Sys2Proof.Machine
end

