-- ==== Sys2Proof/Tests/Slice0.lean ====
section
/-! SUPPORT. Tests. The expected values are those of spec/95_test_vectors.md (its vector's name stands in
the comment) or hand calculation from the rule named; none is the model's own answer. The witnesses at the
end show that the hypotheses of the statements can be met. -/

namespace Sys2Proof.Machine

/-- A Running block: build, memory cells, `pc`, `acc`, flags. -/
def block (build : Bool) (cells : Memory) (pc : Pc) (acc : Word) (neg ext : Bool) : State :=
  { cfg := Config.ofBuild build, mem := cells, pc := pc, acc := acc, neg := neg, ext := ext,
    state := .running }

/-- A Running block of the base build, the build of 95_test_vectors.md section 2. -/
def base (cells : Memory) (pc : Pc) (acc : Word) (neg : Bool) : State := block false cells pc acc neg false

/-- The outcome is a next state with this property. -/
def lands (o : Host.Outcome State Fault Refusal) (p : State → Bool) : Bool :=
  match o with
  | .next t => p t
  | .fault _ => false
  | .refused _ => false

/-- The state a command leaves, if it answers. -/
def doneWith {α : Type} (r : Except CommandError α) (p : α → Bool) : Bool :=
  match r with
  | .ok a => p a
  | .error _ => false

/-- The error a command fails with. -/
def failsWith {ε α : Type} (r : Except ε α) (p : ε → Bool) : Bool :=
  match r with
  | .ok _ => false
  | .error e => p e

/-! ### Well-formedness: an ill-formed term for each check, refused -/

theorem test_wf_hlt_010_extended : Instr.wf true false (.hlt 10) = false := by decide
theorem test_wf_ext_base : Instr.wf false false .ext = false := by decide
theorem test_wf_ina_off : Instr.wf true false .ina = false := by decide
theorem test_wf_ota_base : Instr.wf false true .ota = false := by decide
theorem test_wf_903_low : Instr.wf true true (.invalid903 2) = false := by decide
theorem test_wf_903_high : Instr.wf true true (.invalid903 11) = false := by decide
theorem test_wf_913_low : Instr.wf true true (.invalid913 12) = false := by decide
theorem test_wf_gated_digits : Instr.wf true false (.invalidGated 10) = false := by decide
theorem test_wf_gated_on : Instr.wf true true (.invalidGated 11) = false := by decide

/-! ### Decoding: words written from 30_encoding.md R64 and R69 -/

theorem test_decode_format_m :
    decode false false 100 = .add 0 ∧ decode false false 299 = .sub 99 ∧
    decode false false 312 = .sto 12 ∧ decode false false 501 = .lda 1 ∧ decode false false 600 = .br 0 ∧
    decode false false 706 = .brz 6 ∧ decode false false 809 = .brp 9 := by decide

theorem test_decode_format_s :
    decode false false 901 = .inp ∧ decode false false 902 = .out ∧ decode true true 911 = .ina ∧
    decode true true 912 = .ota := by decide

theorem test_decode_format_z :
    decode true false 0 = .hlt 0 ∧ decode true false 99 = .hlt 99 ∧ decode true false 10 = .ext ∧
    decode false false 10 = .hlt 10 := by decide

theorem test_decode_invalid :
    decode true true 400 = .invalid4xx 0 ∧ decode true true 499 = .invalid4xx 99 ∧
    decode true true 900 = .invalid900 ∧ decode true true 903 = .invalid903 3 ∧
    decode true true 910 = .invalid903 10 ∧ decode true true 913 = .invalid913 13 ∧
    decode true true 999 = .invalid913 99 ∧ decode true false 911 = .invalidGated 11 ∧
    decode false true 912 = .invalidGated 12 := by decide

theorem test_encode :
    encode (.add 99) = 199 ∧ encode (.sto 99) = 399 ∧ encode (.hlt 0) = 0 ∧ encode .ext = 10 ∧
    encode .inp = 901 ∧ encode .ota = 912 := by decide

theorem test_table_word :
    decodeTableWord 16 507 = some (.lda 7) ∧ decodeTableWord 16 10 = some .ext ∧
    decodeTableWord 16 911 = some .ina ∧ decodeTableWord 16 1000 = none := by decide

/-! ### Instructions -/

/-- A1 -/
theorem test_add : lands (step (base [(0, 199), (99, 995)] 0 7 false))
    (fun t => t.acc = 2 && !t.neg && t.pc = 1) = true := by decide
/-- A2: the sum wraps, and `neg` is unchanged. -/
theorem test_add_wraps : lands (exec (.add 0) (base [(0, 999)] 1 999 true))
    (fun t => t.acc = 998 && t.neg) = true := by decide
/-- A6 -/
theorem test_sub_borrows : lands (exec (.sub 10) (base [(10, 10)] 1 5 false))
    (fun t => t.acc = 995 && t.neg) = true := by decide
/-- A12 -/
theorem test_sub_no_borrow : lands (exec (.sub 3) (base [(3, 4)] 1 999 true))
    (fun t => t.acc = 995 && !t.neg) = true := by decide
/-- M3 -/
theorem test_lda_own_word : lands (step (base [(7, 507)] 7 0 true))
    (fun t => t.acc = 507 && t.neg) = true := by decide
/-- M4 -/
theorem test_sto : lands (exec (.sto 99) (base [] 1 7 false))
    (fun t => decide (t.mem = [(99, 7)]) && t.acc = 7) = true := by decide
/-- M6: a STO over its own word. -/
theorem test_sto_own_word : lands (step (base [(4, 304)] 4 5 false))
    (fun t => decide (t.mem = [(4, 5)]) && t.pc = 5) = true := by decide
/-- B1 -/
theorem test_br : lands (step (base [(2, 605)] 2 0 false)) (fun t => t.pc = 5) = true := by decide
/-- B5 -/
theorem test_brz_taken : lands (step (base [(1, 706)] 1 0 true)) (fun t => t.pc = 6) = true := by decide
/-- B4 -/
theorem test_brz_not_taken : lands (step (base [(1, 706)] 1 3 false)) (fun t => t.pc = 2) = true := by
  decide
/-- B6 -/
theorem test_brp_not_taken : lands (step (base [(5, 809)] 5 0 true))
    (fun t => t.pc = 6 && t.neg) = true := by decide
/-- B7 -/
theorem test_brp_taken : lands (step (base [(5, 809)] 5 0 false)) (fun t => t.pc = 9) = true := by decide
/-- I1 -/
theorem test_inp : lands (step (base [(0, 901)] 0 0 false))
    (fun t => t.state = .awaitingInput && t.pc = 1) = true := by decide
/-- I6 -/
theorem test_out : lands (step (base [(0, 902)] 0 2 false))
    (fun t => t.state = .awaitingOutput && t.acc = 2) = true := by decide
/-- I10 -/
theorem test_ina : lands (step (block true [(0, 911)] 0 0 false true))
    (fun t => t.state = .awaitingCharInput) = true := by decide
/-- I9 -/
theorem test_ina_without_ext : lands (step (block true [(3, 911)] 3 0 false false))
    (fun t => t.state = .invalidInstruction && t.pc = 4) = true := by decide
/-- I13 -/
theorem test_ota : lands (step (block true [(0, 912)] 0 65 false true))
    (fun t => t.state = .awaitingCharOutput && t.acc = 65) = true := by decide
/-- R182: 912 in a base build. -/
theorem test_ota_base : lands (step (base [(0, 912)] 0 65 false))
    (fun t => t.state = .invalidInstruction) = true := by decide
/-- H1, H2 -/
theorem test_hlt : lands (step (base [] 5 0 false)) (fun t => t.state = .halted && t.pc = 6) = true ∧
    lands (step (base [(0, 99)] 0 0 false)) (fun t => t.state = .halted) = true := by decide
/-- H3 -/
theorem test_hlt_010_base : lands (step (base [(0, 10)] 0 0 false))
    (fun t => t.state = .halted && t.pc = 1 && !t.ext) = true := by decide
/-- H5 -/
theorem test_ext : lands (step (block true [(7, 10)] 7 0 false false))
    (fun t => t.state = .running && t.pc = 8 && t.ext) = true := by decide
/-- H6 -/
theorem test_ext_first_only :
    lands (step { block true [(7, 10)] 7 0 false false with
      cfg := { extendedBuild := true, extScope := .firstOnly, outputClearsAcc := false } })
      (fun t => t.state = .halted && t.pc = 8 && !t.ext) = true := by decide
/-- H7 -/
theorem test_invalid4xx : lands (step (base [(0, 450)] 0 5 true))
    (fun t => t.state = .invalidInstruction && t.pc = 1 && t.acc = 5 && t.neg) = true := by decide
/-- H8, word 900 -/
theorem test_invalid900 : lands (step (base [(0, 900)] 0 0 false))
    (fun t => t.state = .invalidInstruction) = true := by decide
/-- H8, words 903 and 910 -/
theorem test_invalid903 : lands (step (base [(0, 903)] 0 0 false))
    (fun t => t.state = .invalidInstruction) = true ∧
    lands (step (block true [(0, 910)] 0 0 false true)) (fun t => t.state = .invalidInstruction) = true := by
  decide
/-- H8, words 913 and 999 -/
theorem test_invalid913 : lands (step (block true [(0, 913)] 0 0 false true))
    (fun t => t.state = .invalidInstruction) = true ∧
    lands (step (base [(0, 999)] 0 0 false)) (fun t => t.state = .invalidInstruction) = true := by decide
/-- H9 -/
theorem test_reached_end : lands (step (base [] 100 3 true))
    (fun t => t.state = .reachedEnd && t.pc = 100 && t.acc = 3) = true := by decide
/-- B10, its first step: the branch at 99 is not taken. -/
theorem test_pc_reaches_100 : lands (step (base [(99, 700)] 99 1 false))
    (fun t => t.pc = 100 && t.state = .running) = true := by decide

/-! ### The numeral unit -/

/-- S1, S2, S3 -/
theorem test_add_subtract : add 999 1 = 0 ∧ subtract 5 10 = (995, true) ∧ subtract 10 5 = (5, false) := by
  decide
/-- A14, A15 -/
theorem test_try_from : (tryFrom 999).toOption = some 999 ∧
    failsWith (tryFrom 1000) (fun e => e.value = 1000) = true := by decide

/-! ### Host commands -/

/-- I2 -/
theorem test_input : doneWith (input 7 { base [] 1 0 true with state := .awaitingInput })
    (fun t => t.acc = 7 && t.state = .running && t.neg) = true := by decide
/-- I4, I12 -/
theorem test_input_misused : failsWith (input 7 (base [] 0 0 false)) (· = .unexpectedInput) = true ∧
    failsWith (input 65 { base [] 0 0 false with state := .awaitingCharInput })
      (· = .unexpectedInput) = true := by decide
/-- I7 -/
theorem test_output : doneWith (output { base [] 1 2 false with state := .awaitingOutput })
    (fun r => r.1 = 2 && r.2.acc = 2 && r.2.state = .running) = true := by decide
/-- I8 -/
theorem test_output_misused :
    failsWith (output { base [] 1 2 false with state := .halted }) (· = .unexpectedOutput) = true := by
  decide
/-- I14 -/
theorem test_offer_input :
    failsWith (offerInput 1000 { base [] 1 0 false with state := .awaitingInput })
      (· = .range ⟨1000⟩) = true := by decide
/-- H11 -/
theorem test_reset_command :
    reset { block true [(0, 450)] 1 5 true true with state := .invalidInstruction } =
      block true [(0, 450)] 0 0 false false := by decide
/-- H12 -/
theorem test_run_empty : (runWithin 1 State.reset).map (fun t => (t.state, t.pc)) = some (.halted, 1) := by
  decide
/-- U2 through load_bytes -/
theorem test_load_bytes : doneWith (loadBytes [0xF9, 0xC0] State.reset)
    (fun t => decide (t.mem = [(0, 999)])) = true := by decide

/-! ### The codec: one vector for each phase (R202), and its corners -/

/-- The image with the given non-zero words. -/
def image (cells : Memory) : Image := cells.toImage

/-- K1, K2, K3, K4: offsets 2, 4, 6, 8 -/
theorem test_pack_phase0 : pack (image [(0, 683)]) = [0xAA, 0xC0] := by decide
theorem test_pack_phase1 : pack (image [(1, 683)]) = [0x00, 0x2A, 0xB0] := by decide
theorem test_pack_phase2 : pack (image [(2, 683)]) = [0x00, 0x00, 0x0A, 0xAC] := by decide
theorem test_pack_phase3 : pack (image [(3, 683)]) = [0x00, 0x00, 0x00, 0x02, 0xAB] := by decide
/-- K5: the next group starts at byte 5 -/
theorem test_pack_group : pack (image [(4, 683)]) = [0x00, 0x00, 0x00, 0x00, 0x00, 0xAA, 0xC0] := by decide
/-- K11, in both forms of the packer -/
theorem test_pack_full : pack (image [(0, 999), (1, 999), (2, 999), (3, 999)]) = [0xF9, 0xFE, 0x7F, 0x9F, 0xE7] ∧
    packBySource (image [(0, 999), (1, 999), (2, 999), (3, 999)]) = [0xF9, 0xFE, 0x7F, 0x9F, 0xE7] := by decide +kernel
/-- K12 -/
theorem test_pack_trims : pack (image [(0, 512)]) = [0x80] := by decide
/-- K14 -/
theorem test_pack_last : (pack (image [(99, 1)])).length = 125 := by decide +kernel
/-- U3 -/
theorem test_unpack_trailing_zero :
    (unpack [0xE1, 0x40, 0x00]).toOption.map Memory.ofImage = some [(0, 901)] := by decide
/-- U4 -/
theorem test_unpack_phase3 :
    (unpack [0x00, 0x00, 0x00, 0x00, 0xFF]).toOption.map Memory.ofImage = some [(3, 255)] := by decide
/-- U6, U8, U9 -/
theorem test_unpack_invalid :
    failsWith (unpack [0xFF]) (· = .invalidNumber 0 1020) = true ∧
    failsWith (unpack [0x00, 0x00, 0x00, 0x03, 0xE8]) (· = .invalidNumber 3 1000) = true ∧
    failsWith (unpack [0x00, 0x00, 0x00, 0x00, 0x00, 0xFA]) (· = .invalidNumber 4 1000) = true := by decide
/-- U11 -/
theorem test_unpack_too_large :
    failsWith (unpack (List.replicate 126 0xFF)) (· = .bufferTooLarge 126) = true := by decide +kernel

/-! ### Surrounding software -/

/-- No characters have numerals. -/
def noChars : CharCodec := { toWord := fun _ => none, ofWord := fun _ => none }

/-- S15 in small: 600 at address 0 runs out of cycles at exactly `max_cycles`. -/
theorem test_harness_budget :
    failsWith (runTest noChars ⟨"t", [], [], [], [], 3⟩ (base [(0, 600)] 0 0 false))
      (· = .runOutOfCycles "t" 3) = true := by decide
/-- S14 in small: INP with no input left. -/
theorem test_harness_inputs :
    failsWith (runTest noChars ⟨"t", [], [], [], [], 9⟩ (base [(0, 901)] 0 0 false))
      (· = .runOutOfInputs "t" 1) = true := by decide
/-- L3-2's first lines with its labels: LDA n, n being the word after them (R74, R75, R77). -/
theorem test_assemble_label :
    (assemble false [⟨none, .lda, some (.label "n")⟩, ⟨none, .hlt, none⟩,
      ⟨some "n", .dat, some (.literal 3)⟩]).toOption.map Memory.ofImage = some [(0, 502), (2, 3)] := by decide
/-- R75: a literal address of 100. -/
theorem test_assemble_address :
    failsWith (assemble false [⟨none, .hlt, none⟩, ⟨none, .add, some (.literal 100)⟩])
      (· = ⟨2, .addressTooLarge 100⟩) = true := by decide

/-- R76: the first offending line is reported, before the later duplicate label of line 3. -/
theorem test_assemble_first_offence :
    failsWith (assemble false [⟨some "a", .add, none⟩, ⟨some "b", .hlt, none⟩, ⟨some "b", .hlt, none⟩])
      (· = ⟨1, .expectedData⟩) = true ∧
    failsWith (assemble false [⟨some "a", .hlt, none⟩, ⟨some "a", .hlt, none⟩, ⟨none, .add, none⟩])
      (· = ⟨2, .multipleAssignment "a"⟩) = true := by decide
/-- S8, and R76 for a source that is too long: line 2 offends before line 101. -/
theorem test_assemble_too_many :
    failsWith (assemble false (List.replicate 101 ⟨none, .out, none⟩))
      (· = ⟨101, .tooManyInstructions⟩) = true ∧
    failsWith (assembleNumerals (.literal 1 :: .literal 1000 :: List.replicate 101 (.literal 1)))
      (· = ⟨2, .range ⟨1000⟩⟩) = true := by decide +kernel
/-- R78, R79: the line number counts blank lines, the limit does not. -/
theorem test_numerals_too_many :
    failsWith (assembleNumerals (.blank :: List.replicate 101 (.literal 902)))
      (· = ⟨102, .tooManyLines⟩) = true ∧
    (assembleNumerals [.blank, .literal 7]).toOption.map Memory.ofImage = some [(0, 7)] := by decide +kernel

/-- R79: blank and comment-only lines, one literal each, read from text. -/
theorem test_numeral_text :
    (assembleNumeralText ['9', '0', '2', ' ', '#', 'x', '\n', '\n', ';', '1', '\n', ' ', '0', '7', '\n']).toOption.map
      Memory.ofImage = some [(0, 902), (1, 7)] := by decide +kernel
/-- R79: two literals on a line, and a word that is no decimal literal, are malformed, with the line number
that counts every line; out of range is an error of its own. -/
theorem test_numeral_malformed :
    failsWith (assembleNumeralText ['1', '\n', '#', '\n', '2', ' ', '3'])
      (· = ⟨3, .malformedValue [['2'], ['3']]⟩) = true ∧
    failsWith (assembleNumeralText ['1', 'x']) (· = ⟨1, .malformedValue [['1', 'x']]⟩) = true ∧
    failsWith (assembleNumeralText ['1', '0', '0', '0']) (· = ⟨1, .range ⟨1000⟩⟩) = true := by decide +kernel

/-- L3-9's first line, and a second test whose input is no numeral. -/
theorem test_script :
    (readScript false ['t', ';', '7', ',', '9', '9', '5', ';', '2', ';', '1', '0']).toOption =
      some [⟨"t", [7, 995], [2], [], [], 10⟩] ∧
    failsWith (readScript false ['\n', ';', '1', '0', '0', '0', ';', ';', '5'])
      (· = ⟨2, .range ⟨1000⟩⟩) = true := by decide +kernel
/-- R229: the six fields of an extended line, the character strings literal; four fields are too few. -/
theorem test_script_extended :
    (readScript true ['u', ';', ';', ';', 'h', ' ', ';', ',', ';', '3']).toOption =
      some [⟨"u", [], [], ['h', ' '], [','], 3⟩] ∧
    failsWith (readScript true ['u', ';', ';', ';', '3']) (· = ⟨1, .fieldCount 4⟩) = true := by decide +kernel

/-! ### Interface -/

/-- A placed word is what the next step runs, from reset (OTA: R64's condition is met). -/
theorem test_with_fetch_word :
    lands (step (State.reset.withFetchWord 16 912)) (fun t => t.state = .awaitingCharOutput) = true ∧
    lands (step (State.reset.withFetchWord 16 10)) (fun t => t.state = .running && t.ext) = true ∧
    lands (step (State.reset.withFetchWord 16 605)) (fun t => t.pc = 5) = true := by decide

/-! ### Witnesses: the hypotheses of the statements can be met -/

theorem witness_running_br : RunningAt (base [(5, 605)] 5 0 false) 5 605 ∧ (605 : Word).val = 600 + (5 : Addr).val := by
  decide
theorem witness_ext_flag : (block true [] 1 0 false true).extFlag = true ∧
    (block true [] 1 0 false false).extFlag = false ∧ (block false [] 1 0 false true).extFlag = false := by decide
/-- HLT at both ends of its range, and 010 in a base build. -/
theorem witness_hlt : RunningAt (base [] 0 0 false) 0 0 ∧ RunningAt (base [(99, 99)] 99 0 false) 99 99 ∧
    RunningAt (base [(3, 10)] 3 0 false) 3 10 ∧
    ¬((base [(3, 10)] 3 0 false).cfg.extendedBuild = true ∧ (10 : Word).val = 10) := by decide
/-- A Running extended build with `EXT_SCOPE = first_only`. -/
def firstOnly (cells : Memory) (pc : Pc) : State :=
  { block true cells pc 0 false false with
    cfg := { extendedBuild := true, extScope := .firstOnly, outputClearsAcc := false } }
/-- EXT under each scope, from address 0 and from another, and in a base build. -/
theorem witness_ext :
    (RunningAt (block true [(7, 10)] 7 0 false false) 7 10 ∧
      (block true [(7, 10)] 7 0 false false).cfg.extScope = .anywhere) ∧
    (RunningAt (firstOnly [(0, 10)] 0) 0 10 ∧ (firstOnly [(0, 10)] 0).cfg.extScope = .firstOnly) ∧
    (RunningAt (firstOnly [(1, 10)] 1) 1 10 ∧ (firstOnly [(1, 10)] 1).cfg.extendedBuild = true) ∧
    (firstOnly [] 1).pc.val = 1 ∧ (firstOnly [] 2).pc.val ≠ 1 ∧
    (base [] 1 0 false).cfg.extendedBuild = false := by decide
/-- Each clause of `InvalidWord` at its boundary values. -/
theorem witness_invalid_words : InvalidWord true 400 ∧ InvalidWord true 499 ∧ InvalidWord true 900 := by
  decide
theorem witness_invalid_9xx : InvalidWord true 903 ∧ InvalidWord true 910 ∧ InvalidWord true 913 ∧
    InvalidWord true 999 := by decide
theorem witness_invalid_gated : InvalidWord false 911 ∧ InvalidWord false 912 ∧ ¬InvalidWord true 911 ∧
    ¬InvalidWord false 902 := by decide
theorem witness_invalid_stop : RunningAt (base [(0, 911)] 0 0 false) 0 911 ∧
    InvalidWord (base [(0, 911)] 0 0 false).extFlag (911 : Word).val := by decide
/-- A well-formed instruction of every shape with a condition, at its boundary values. -/
theorem witness_wf :
    Instr.wf true false (.hlt 9) = true ∧ Instr.wf false false (.hlt 10) = true ∧
    Instr.wf true false .ext = true ∧ Instr.wf true true .ina = true ∧ Instr.wf true true .ota = true ∧
    Instr.wf true true (.invalid903 3) = true ∧ Instr.wf true true (.invalid903 10) = true ∧
    Instr.wf true true (.invalid913 13) = true ∧ Instr.wf true true (.invalid913 99) = true ∧
    Instr.wf true false (.invalidGated 11) = true ∧ Instr.wf false true (.invalidGated 12) = true := by decide
theorem witness_mode_changes : decode true true 911 ≠ decode true false 911 ∧
    decode true false 10 ≠ decode false false 10 := by decide
theorem witness_not_running : ({ base [] 1 0 false with state := .awaitingInput } : State).state ≠ .running := by
  decide
theorem witness_pc_100 : (base [] 100 0 false).state = .running ∧ (base [] 100 0 false).pc.val = 100 := by
  decide
/-- A step that moves `pc` to 100, from address 99. -/
theorem witness_step_to_100 :
    step (base [(99, 501)] 99 0 false) = .next (base [(99, 501)] 100 0 false) := by rfl
/-- A step that writes `acc`, a step that writes `neg`, a step that writes `ext`. -/
theorem witness_step_writes_acc : step (base [(0, 500)] 0 0 false) = .next (base [(0, 500)] 1 500 false) := by
  rfl
theorem witness_step_writes_neg : step (base [(0, 200)] 0 0 false) = .next (base [(0, 200)] 1 800 true) := by
  rfl
theorem witness_step_writes_ext :
    step (block true [(0, 10)] 0 0 false false) = .next (block true [(0, 10)] 1 0 false true) := by rfl
/-- A STO into the next word. -/
theorem witness_sto_next : RunningAt (base [(1, 302)] 1 902 false) 1 302 ∧
    (2 : Addr).val = (1 : Addr).val + 1 ∧ (302 : Word).val = 300 + (2 : Addr).val := by decide
/-- A command that changes `state`, and one that changes `acc`. -/
theorem witness_command_changes :
    (after (.input 7) { base [] 1 0 false with state := .awaitingInput }).state = .running ∧
    (after (.input 7) { base [] 1 0 false with state := .awaitingInput }).acc = 7 ∧
    (after .output { block true [] 1 5 false false with
      state := .awaitingOutput, cfg := { extendedBuild := true, extScope := .anywhere, outputClearsAcc := true } }).acc
      = 0 := by decide
/-- The invariant holds of a suspended and of a stopped block, and a step is taken from one that has it. -/
theorem witness_invariant :
    State.Inv { block true [(0, 911)] 1 0 false true with state := .awaitingCharInput } ∧
    State.Inv { base [(0, 450)] 1 0 false with state := .invalidInstruction } ∧
    State.Inv (base [(0, 501)] 0 0 false) ∧
    lands (step (base [(0, 501)] 0 0 false)) (fun _ => true) = true := by decide
/-- A base build that a host reaches. -/
theorem witness_reachable_base : Reachable (load (image []) (base [] 0 0 false)) ∧
    (load (image []) (base [] 0 0 false)).cfg.extendedBuild = false := ⟨.load _ _, rfl⟩
theorem witness_memories : Memory.wf [(3, 7), (99, 1)] = true ∧ Memory.wf [(3, 0)] = false ∧
    Memory.wf [(100, 1)] = false ∧ Memory.wf [(4, 1), (3, 1)] = false := by decide
theorem witness_suspended : ({ base [] 1 0 false with state := .awaitingCharInput } : State).state =
    .awaitingCharInput ∧ ({ base [] 1 0 false with state := .awaitingOutput } : State).state = .awaitingOutput ∧
    ({ base [] 1 0 false with state := .awaitingCharOutput } : State).state = .awaitingCharOutput := by decide
theorem witness_inp_out : RunningAt (base [(99, 901)] 99 0 false) 99 901 ∧
    RunningAt (base [(0, 902)] 0 0 false) 0 902 := by decide
theorem witness_terminal : CtrlState.terminal .halted = true ∧ CtrlState.terminal .reachedEnd = true ∧
    CtrlState.terminal .invalidInstruction = true := by decide
/-- A run that returns, in one step, and a block that is not Running. -/
theorem witness_runs : Runs (base [] 0 0 false) { base [] 1 0 false with state := .halted } := ⟨1, by decide⟩
/-- A table word, and blocks at the last address and at the end of memory to place it in. -/
theorem witness_table_word : decodeTableWord 16 912 = some .ota ∧ (base [] 99 0 false).pc.val < 100 ∧
    (base [] 100 0 false).pc.val = 100 ∧
    lands (step ((base [] 100 0 false).withFetchWord 16 912)) (fun t => t.pc = 1) = true := by decide
/-- A buffer that unpacks, with and without a trailing zero byte; one of exactly 125 bytes; and three that do not. -/
theorem witness_unpack : (unpack [0xF9, 0xC0]).toOption = some (image [(0, 999)]) ∧
    (unpack [0xF9, 0xC0, 0x00]).toOption = some (image [(0, 999)]) := by decide
theorem witness_unpack_125 : (unpack (List.replicate 125 0)).toOption = some (image []) := by decide +kernel
theorem witness_unpack_errors :
    failsWith (unpack [0xFF, 0xFF]) (· = .invalidNumber 0 1023) = true ∧ [0xFF, (0xFF : Byte)].length ≤ 125 ∧
    125 < (List.replicate 126 (0 : Byte)).length := by decide +kernel
/-- A test that passes, in its one cycle. -/
theorem witness_harness_passes :
    (runTest noChars ⟨"t", [], [], [], [], 1⟩ (base [] 0 0 false)).toOption = some 1 := by decide

end Sys2Proof.Machine
end

/-! PROOFS for 00_scope.md: what an instruction and a command do to the build parameters, to the
extended-mode flag and to the controller state (R2, R12, R24, R25). -/

namespace Sys2Proof.Machine

/-! ### Instructions and steps -/

/-- The two suspensions for characters, which extended mode alone enters (R25, R164, R165). -/
def CtrlState.forChars : CtrlState → Bool
  | .awaitingCharInput | .awaitingCharOutput => true
  | .running | .awaitingInput | .awaitingOutput | .halted | .reachedEnd | .invalidInstruction => false

theorem CtrlState.forChars_eq_false_iff (c : CtrlState) :
    c.forChars = false ↔ c ≠ .awaitingCharInput ∧ c ≠ .awaitingCharOutput := by
  cases c <;> simp [CtrlState.forChars]

theorem exec_total (i : Instr) (s : State) : ∃ t, exec i s = .next t := by
  cases i <;> exact ⟨_, rfl⟩

theorem step_total (s : State) : ∃ t, step s = .next t := by
  unfold step
  split
  · split
    · exact ⟨_, rfl⟩
    · exact exec_total _ _
  · exact ⟨_, rfl⟩

/-- An instruction leaves the build, the flag and the controller state alone, or enters one controller
state and does nothing else, or is an accepted EXT. -/
theorem exec_control_cases {i : Instr} {s t : State} (h : exec i s = .next t) :
    (t.cfg = s.cfg ∧ t.ext = s.ext ∧ t.state = s.state) ∨
    (∃ c, t = s.enter c ∧ (c.forChars = true → s.extFlag = true)) ∨
    (s.extAccepted = true ∧ t = s.setExt true) := by
  cases i with
  | add | sub | sto | lda | br =>
    cases h
    exact .inl ⟨rfl, rfl, rfl⟩
  | brz | brp =>
    cases h
    left
    split <;> exact ⟨rfl, rfl, rfl⟩
  | hlt | inp | out | invalid4xx | invalid900 | invalid903 | invalid913 | invalidGated =>
    cases h
    exact .inr (.inl ⟨_, rfl, nofun⟩)
  | ina | ota =>
    cases h
    right; left
    split
    next hext => exact ⟨_, rfl, fun _ => hext⟩
    next => exact ⟨_, rfl, nofun⟩
  | ext =>
    cases h
    right
    split
    next hacc => exact .inr ⟨hacc, rfl⟩
    next => exact .inl ⟨_, rfl, nofun⟩

theorem exec_cfg {i : Instr} {s t : State} (h : exec i s = .next t) : t.cfg = s.cfg := by
  obtain ⟨hcfg, -, -⟩ | ⟨c, rfl, -⟩ | ⟨-, rfl⟩ := exec_control_cases h
  · exact hcfg
  · rfl
  · rfl

theorem step_cfg {s t : State} (h : step s = .next t) : t.cfg = s.cfg := by
  obtain ⟨-, rfl⟩ | ⟨-, -, rfl⟩ | ⟨-, a, -, hexec⟩ := step_cases h
  · rfl
  · rfl
  · exact (exec_cfg hexec).trans (State.setPc_cfg s _)

/-! ### Commands -/

theorem step_eq_next_after (s : State) : step s = .next (after .step s) := by
  obtain ⟨t, ht⟩ := step_total s
  simp [after, perform, ht]

theorem after_loadBytes (P : List Byte) (s : State) :
    after (.loadBytes P) s = match unpack P with | .ok img => load img s | .error _ => s := by
  cases hP : unpack P <;> simp [after, perform, loadBytes, hP, Except.map]

theorem after_input (v : Word) (s : State) :
    after (.input v) s = if s.state = .awaitingInput then s.takeInput v else s := by
  by_cases hs : s.state = .awaitingInput <;> simp [after, perform, input, hs, Except.map]

theorem after_inputChar (v : Word) (s : State) :
    after (.inputChar v) s = if s.state = .awaitingCharInput then s.takeInput v else s := by
  by_cases hs : s.state = .awaitingCharInput <;> simp [after, perform, inputChar, hs, Except.map]

theorem after_output (s : State) :
    after .output s = if s.state = .awaitingOutput then s.releaseOutput else s := by
  by_cases hs : s.state = .awaitingOutput <;> simp [after, perform, output, hs, Except.map]

theorem after_outputChar (s : State) :
    after .outputChar s = if s.state = .awaitingCharOutput then s.releaseOutput else s := by
  by_cases hs : s.state = .awaitingCharOutput <;> simp [after, perform, outputChar, hs, Except.map]

/-- Everything a command can leave: the block as it was, the state after a step, every register at its
reset value over some memory, or a suspension completed. -/
theorem after_control_cases (c : Command) (s : State) :
    after c s = s ∨ step s = .next (after c s) ∨ (∃ m, after c s = State.atReset s.cfg m) ∨
    ((s.state = .awaitingInput ∨ s.state = .awaitingCharInput) ∧ ∃ v, after c s = s.takeInput v) ∨
    ((s.state = .awaitingOutput ∨ s.state = .awaitingCharOutput) ∧ after c s = s.releaseOutput) := by
  cases c with
  | step => exact .inr (.inl (step_eq_next_after s))
  | load | reset => exact .inr (.inr (.inl ⟨_, rfl⟩))
  | readState | dump => exact .inl rfl
  | loadBytes P =>
    rw [after_loadBytes]
    split
    · exact .inr (.inr (.inl ⟨_, rfl⟩))
    · exact .inl rfl
  | input v =>
    rw [after_input]
    split
    next hs => exact .inr (.inr (.inr (.inl ⟨.inl hs, v, rfl⟩)))
    next => exact .inl rfl
  | inputChar v =>
    rw [after_inputChar]
    split
    next hs => exact .inr (.inr (.inr (.inl ⟨.inr hs, v, rfl⟩)))
    next => exact .inl rfl
  | output =>
    rw [after_output]
    split
    next hs => exact .inr (.inr (.inr (.inr ⟨.inl hs, rfl⟩)))
    next => exact .inl rfl
  | outputChar =>
    rw [after_outputChar]
    split
    next hs => exact .inr (.inr (.inr (.inr ⟨.inr hs, rfl⟩)))
    next => exact .inl rfl

@[simp] theorem State.takeInput_cfg (s : State) (v : Word) : (s.takeInput v).cfg = s.cfg := rfl
@[simp] theorem State.takeInput_ext (s : State) (v : Word) : (s.takeInput v).ext = s.ext := rfl
@[simp] theorem State.takeInput_state (s : State) (v : Word) : (s.takeInput v).state = .running := rfl

@[simp] theorem State.releaseOutput_cfg (s : State) : s.releaseOutput.cfg = s.cfg := by
  unfold State.releaseOutput
  split <;> rfl

@[simp] theorem State.releaseOutput_ext (s : State) : s.releaseOutput.ext = s.ext := by
  unfold State.releaseOutput
  split <;> rfl

@[simp] theorem State.releaseOutput_state (s : State) : s.releaseOutput.state = .running := rfl

theorem after_cfg (c : Command) (s : State) : (after c s).cfg = s.cfg := by
  obtain h | h | ⟨m, h⟩ | ⟨-, v, h⟩ | ⟨-, h⟩ := after_control_cases c s
  · rw [h]
  · exact step_cfg h
  · rw [h, State.atReset]
  · rw [h, State.takeInput_cfg]
  · rw [h, State.releaseOutput_cfg]

/-! ### A base build -/

/-- The flag is clear and the controller in no suspension for characters: what a base build keeps. -/
structure State.ExtOff (s : State) : Prop where
  ext : s.ext = false
  state : s.state.forChars = false

theorem State.extOff_atReset (cfg : Config) (m : Memory) : (State.atReset cfg m).ExtOff := ⟨rfl, rfl⟩

/-- In a base build the flag reads as false, whatever it holds (R24). -/
theorem State.extFlag_of_base {s : State} (hb : s.cfg.extendedBuild = false) : s.extFlag = false := by
  simp [State.extFlag, hb]

theorem State.extAccepted_of_base {s : State} (hb : s.cfg.extendedBuild = false) :
    s.extAccepted = false := by
  simp [State.extAccepted, hb]

theorem exec_keeps_extOff {i : Instr} {s t : State} (hb : s.cfg.extendedBuild = false)
    (hs : s.ExtOff) (h : exec i s = .next t) : t.ExtOff := by
  obtain ⟨-, hext, hstate⟩ | ⟨c, rfl, hchars⟩ | ⟨hacc, -⟩ := exec_control_cases h
  · exact ⟨hext.trans hs.ext, by rw [hstate, hs.state]⟩
  · exact ⟨hs.ext, by simpa [State.extFlag_of_base hb] using hchars⟩
  · simp [State.extAccepted_of_base hb] at hacc

theorem step_keeps_extOff {s t : State} (hb : s.cfg.extendedBuild = false)
    (hs : s.ExtOff) (h : step s = .next t) : t.ExtOff := by
  obtain ⟨-, rfl⟩ | ⟨-, -, rfl⟩ | ⟨-, a, -, hexec⟩ := step_cases h
  · exact hs
  · exact ⟨hs.ext, rfl⟩
  · exact exec_keeps_extOff (s := s.setPc (nextPc a)) hb ⟨hs.ext, hs.state⟩ hexec

theorem after_keeps_extOff {s : State} (c : Command) (hb : s.cfg.extendedBuild = false)
    (hs : s.ExtOff) : (after c s).ExtOff := by
  obtain h | h | ⟨m, h⟩ | ⟨-, v, h⟩ | ⟨-, h⟩ := after_control_cases c s
  · rwa [h]
  · exact step_keeps_extOff hb hs h
  · exact h ▸ State.extOff_atReset s.cfg m
  · exact h ▸ ⟨hs.ext, rfl⟩
  · exact h ▸ ⟨(State.releaseOutput_ext s).trans hs.ext, rfl⟩

theorem Reachable.extOff_of_base {s : State} (h : Reachable s) (hb : s.cfg.extendedBuild = false) :
    s.ExtOff := by
  induction h with
  | load img s => exact State.extOff_atReset s.cfg _
  | command c s _ ih =>
    rw [after_cfg] at hb
    exact after_keeps_extOff c hb (ih hb)

/-- Settles O39: every command keeps the build, so a base build stays one along a run, and there every
command keeps `State.ExtOff`. -/
theorem aBaseBuildStaysWithoutExtendedMode : Obligations.ABaseBuildStaysWithoutExtendedMode := by
  refine ⟨after_cfg, fun s hs hb => ?_⟩
  obtain ⟨hext, hstate⟩ := hs.extOff_of_base hb
  exact ⟨hext, State.extFlag_of_base hb, (CtrlState.forChars_eq_false_iff _).mp hstate⟩

end Sys2Proof.Machine

/-! PROOFS for 10_state.md: what a step and a command do to memory and to each register, and what they
keep (R21, R23, R24, R25, R28). -/

namespace Sys2Proof.Machine

/-! ### The decoder: the word an instruction was decoded from, and the mode it needs -/

theorem wordOf_addrDigits {op : Fin 10} {w : Word} (h : opDigit w = op.val) : wordOf op (addrDigits w) = w := by
  conv => rhs; rw [← wordOf_digits w]
  congr 1
  exact Fin.ext h.symm

theorem encode_decodeZero (build : Bool) (x : Addr) : encode (decodeZero build x) = wordOf 0 x := by
  unfold decodeZero
  split
  next h =>
    obtain ⟨-, hx⟩ : build = true ∧ x.val = 10 := by simpa using h
    rw [show x = 10 from Fin.ext hx]
    rfl
  next => rfl

theorem encode_decodeIo (build ext : Bool) (f : Addr) : encode (decodeIo build ext f) = wordOf 9 f := by
  have at_digits {n : Addr} (hf : f.val = n.val) : wordOf 9 n = wordOf 9 f := by rw [Fin.ext hf]
  unfold decodeIo
  split_ifs with h0 h1 h2 h10 h11 hmode h12 hmode
  · exact at_digits h0
  · exact at_digits h1
  · exact at_digits h2
  · rfl
  · exact at_digits h11
  · rfl
  · exact at_digits h12
  · rfl
  · rfl

/-- The decoder loses no digit: the word can be read back from its instruction, in every mode. -/
theorem encode_decode (build ext : Bool) (w : Word) : encode (decode build ext w) = w := by
  unfold decode
  split
  next h => exact (encode_decodeZero build _).trans (wordOf_addrDigits h)
  next h => exact wordOf_addrDigits (op := 1) h
  next h => exact wordOf_addrDigits (op := 2) h
  next h => exact wordOf_addrDigits (op := 3) h
  next h => exact wordOf_addrDigits (op := 5) h
  next h => exact wordOf_addrDigits (op := 6) h
  next h => exact wordOf_addrDigits (op := 7) h
  next h => exact wordOf_addrDigits (op := 8) h
  next h => exact (encode_decodeIo build ext _).trans (wordOf_addrDigits h)
  next h0 h1 h2 h3 h5 h6 h7 h8 h9 =>
    have hlt : opDigit w < 10 := by unfold opDigit; omega
    exact wordOf_addrDigits (op := 4) (show opDigit w = 4 by grind)

/-- The word in memory is the encoding of the instruction the controller decodes from it. -/
theorem State.eq_encode_of_decodeWord {s : State} {w : Word} {i : Instr} (h : s.decodeWord w = i) :
    w = encode i := by
  rw [← h, State.decodeWord, encode_decode]

theorem wf_decodeZero (build ext : Bool) (x : Addr) : Instr.wf build ext (decodeZero build x) = true := by
  unfold decodeZero
  split
  next h => exact (Bool.and_eq_true_iff.mp h).1
  next h => rw [Instr.wf, Bool.eq_false_iff.mpr h, Bool.not_false]

theorem wf_decodeIo (build ext : Bool) (f : Addr) : Instr.wf build ext (decodeIo build ext f) = true := by
  unfold decodeIo
  split_ifs with h0 h1 h2 h10 h11 hmode h12 hmode <;> simp only [Instr.wf] <;> grind

/-- The decoder gives only instructions of the decode map, in every mode (R64, R65). -/
theorem wf_decode (build ext : Bool) (w : Word) : Instr.wf build ext (decode build ext w) = true := by
  unfold decode
  split
  case h_1 => exact wf_decodeZero build ext _
  case h_9 => exact wf_decodeIo build ext _
  all_goals rfl

/-- A character instruction is decoded in extended mode only (R64). -/
theorem State.extFlag_of_decodeWord {s : State} {w : Word}
    (h : s.decodeWord w = .ina ∨ s.decodeWord w = .ota) : s.extFlag = true := by
  have hwf := wf_decode s.cfg.extendedBuild s.extFlag w
  rw [← State.decodeWord] at hwf
  have hmode : extendedMode s.cfg.extendedBuild s.extFlag = true := by
    obtain h | h := h <;> rwa [h] at hwf
  exact (Bool.and_eq_true_iff.mp hmode).2

/-! ### What an instruction can do -/

/-- The controller state an instruction enters where it does nothing else: a suspension or a stop, by the
value of the extended-mode flag. EXT stops where it is not accepted (R181). -/
def stopState (extFlag : Bool) : Instr → Option CtrlState
  | .inp => some .awaitingInput
  | .out => some .awaitingOutput
  | .ina => some (if extFlag then .awaitingCharInput else .invalidInstruction)
  | .ota => some (if extFlag then .awaitingCharOutput else .invalidInstruction)
  | .hlt _ | .ext => some .halted
  | .invalid4xx _ | .invalid900 | .invalid903 _ | .invalid913 _ | .invalidGated _ => some .invalidInstruction
  | .add _ | .sub _ | .sto _ | .lda _ | .br _ | .brz _ | .brp _ => none

/-- Everything an instruction can do: branch or go on, write `acc`, write `acc` and `neg`, store `acc`,
set `ext`, or enter its controller state. -/
theorem exec_cases {i : Instr} {s t : State} (h : exec i s = .next t) :
    (∃ a, (i = .br a ∨ i = .brz a ∨ i = .brp a) ∧ (t = s ∨ t = s.branchTo a)) ∨
    (∃ a v, (i = .add a ∨ i = .lda a) ∧ t = s.setAcc v) ∨
    (∃ a v b, i = .sub a ∧ t = (s.setAcc v).setNeg b) ∨
    (∃ a, i = .sto a ∧ t = s.setWord a s.acc) ∨
    (i = .ext ∧ s.extAccepted = true ∧ t = s.setExt true) ∨
    (∃ c, stopState s.extFlag i = some c ∧ t = s.enter c) := by
  cases i with
  | br a => cases h; exact .inl ⟨a, by simp⟩
  | brz a =>
    cases h
    refine .inl ⟨a, by simp, ?_⟩
    split
    · exact .inr rfl
    · exact .inl rfl
  | brp a =>
    cases h
    refine .inl ⟨a, by simp, ?_⟩
    split
    · exact .inl rfl
    · exact .inr rfl
  | add a | lda a => cases h; exact .inr (.inl ⟨a, _, by simp, rfl⟩)
  | sub a => cases h; exact .inr (.inr (.inl ⟨a, _, _, rfl, rfl⟩))
  | sto a => cases h; exact .inr (.inr (.inr (.inl ⟨a, rfl, rfl⟩)))
  | ext =>
    cases h
    right; right; right; right
    split
    next hacc => exact .inl ⟨rfl, hacc, rfl⟩
    next => exact .inr ⟨_, rfl, rfl⟩
  | ina | ota =>
    cases h
    right; right; right; right; right
    split
    next hext => exact ⟨_, by rw [stopState, if_pos hext], rfl⟩
    next hext => exact ⟨_, by rw [stopState, if_neg hext], rfl⟩
  | hlt | inp | out | invalid4xx | invalid900 | invalid903 | invalid913 | invalidGated =>
    cases h
    exact .inr (.inr (.inr (.inr (.inr ⟨_, rfl, rfl⟩))))

/-! Which instructions write which field -/

theorem exec_pc_cases {i : Instr} {s t : State} (h : exec i s = .next t) :
    t.pc = s.pc ∨ ∃ a, (i = .br a ∨ i = .brz a ∨ i = .brp a) ∧ t.pc = branchTarget a := by
  obtain ⟨a, hi, rfl | rfl⟩ | ⟨a, v, -, rfl⟩ | ⟨a, v, b, -, rfl⟩ | ⟨a, -, rfl⟩ | ⟨-, -, rfl⟩ | ⟨c, -, rfl⟩ :=
    exec_cases h
  case inl.inr => exact .inr ⟨a, hi, rfl⟩
  all_goals exact .inl rfl

theorem exec_neg_cases {i : Instr} {s t : State} (h : exec i s = .next t) :
    t.neg = s.neg ∨ ∃ a, i = .sub a := by
  obtain ⟨a, -, rfl | rfl⟩ | ⟨a, v, -, rfl⟩ | ⟨a, v, b, hi, rfl⟩ | ⟨a, -, rfl⟩ | ⟨-, -, rfl⟩ | ⟨c, -, rfl⟩ :=
    exec_cases h
  case inr.inr.inl => exact .inr ⟨a, hi⟩
  all_goals exact .inl rfl

theorem exec_acc_cases {i : Instr} {s t : State} (h : exec i s = .next t) :
    t.acc = s.acc ∨ ∃ a, i = .add a ∨ i = .sub a ∨ i = .lda a := by
  obtain ⟨a, -, rfl | rfl⟩ | ⟨a, v, hi, rfl⟩ | ⟨a, v, b, hi, rfl⟩ | ⟨a, -, rfl⟩ | ⟨-, -, rfl⟩ | ⟨c, -, rfl⟩ :=
    exec_cases h
  case inr.inl => exact .inr ⟨a, hi.imp_right .inr⟩
  case inr.inr.inl => exact .inr ⟨a, .inr (.inl hi)⟩
  all_goals exact .inl rfl

theorem exec_ext_cases {i : Instr} {s t : State} (h : exec i s = .next t) :
    t.ext = s.ext ∨ (i = .ext ∧ s.extAccepted = true ∧ t.ext = true) := by
  obtain ⟨a, -, rfl | rfl⟩ | ⟨a, v, -, rfl⟩ | ⟨a, v, b, -, rfl⟩ | ⟨a, -, rfl⟩ | ⟨hi, hacc, rfl⟩ | ⟨c, -, rfl⟩ :=
    exec_cases h
  case inr.inr.inr.inr.inl => exact .inr ⟨hi, hacc, rfl⟩
  all_goals exact .inl rfl

theorem exec_mem_cases {i : Instr} {s t : State} (h : exec i s = .next t) :
    t.mem = s.mem ∨ ∃ a, i = .sto a ∧ t.mem = s.mem.write a s.acc := by
  obtain ⟨a, -, rfl | rfl⟩ | ⟨a, v, -, rfl⟩ | ⟨a, v, b, -, rfl⟩ | ⟨a, hi, rfl⟩ | ⟨-, -, rfl⟩ | ⟨c, -, rfl⟩ :=
    exec_cases h
  case inr.inr.inr.inl => exact .inr ⟨a, hi, rfl⟩
  all_goals exact .inl rfl

theorem exec_state_cases {i : Instr} {s t : State} (h : exec i s = .next t) :
    t.state = s.state ∨ ∃ c, stopState s.extFlag i = some c ∧ t = s.enter c := by
  obtain ⟨a, -, rfl | rfl⟩ | ⟨a, v, -, rfl⟩ | ⟨a, v, b, -, rfl⟩ | ⟨a, -, rfl⟩ | ⟨-, -, rfl⟩ | hstop :=
    exec_cases h
  case inr.inr.inr.inr.inr => exact .inr hstop
  all_goals exact .inl rfl

/-! ### What a step can do to one field -/

/-- A field that entering a controller state leaves alone changes in a step only where the step executes a
word. -/
theorem step_field_cases {α : Type} (f : State → α) (henter : ∀ s c, f (s.enter c) = f s) {s t : State}
    (h : step s = .next t) :
    f t = f s ∨ ∃ a w, RunningAt s a w ∧ exec (s.decodeWord w) (s.setPc (nextPc a)) = .next t := by
  obtain ⟨-, rfl⟩ | ⟨-, -, rfl⟩ | ⟨hrun, a, hpc, hexec⟩ := step_cases h
  · exact .inl rfl
  · exact .inl (henter s _)
  · exact .inr ⟨a, _, ⟨hrun, hpc, rfl⟩, hexec⟩

/-- A step that moves `pc` moves it past the fetched word, or to the address digits of a branch word. -/
theorem step_pc_cases {s t : State} (h : step s = .next t) :
    t.pc = s.pc ∨ ∃ a w, RunningAt s a w ∧
      (t.pc = nextPc a ∨ (600 ≤ w.val ∧ w.val ≤ 899 ∧ t.pc.val = w.val % 100)) := by
  obtain hpc | ⟨a, w, hrun, hexec⟩ := step_field_cases State.pc State.enter_pc h
  · exact .inl hpc
  refine .inr ⟨a, w, hrun, ?_⟩
  obtain hpc | ⟨x, hi, hpc⟩ := exec_pc_cases hexec
  · exact .inl hpc
  · right
    have hw : w = wordOf 6 x ∨ w = wordOf 7 x ∨ w = wordOf 8 x :=
      hi.imp State.eq_encode_of_decodeWord (Or.imp State.eq_encode_of_decodeWord State.eq_encode_of_decodeWord)
    have htarget : t.pc.val = x.val := by rw [hpc]; rfl
    obtain rfl | rfl | rfl := hw <;> simp only [Laws.wordOf_val] <;> omega

theorem step_neg_cases {s t : State} (h : step s = .next t) :
    t.neg = s.neg ∨ ∃ a w x, RunningAt s a w ∧ w = wordOf 2 x := by
  obtain hneg | ⟨a, w, hrun, hexec⟩ := step_field_cases State.neg State.enter_neg h
  · exact .inl hneg
  · exact (exec_neg_cases hexec).imp_right fun ⟨x, hi⟩ => ⟨a, w, x, hrun, State.eq_encode_of_decodeWord hi⟩

theorem step_ext_cases {s t : State} (h : step s = .next t) :
    t.ext = s.ext ∨ (t.ext = true ∧ s.cfg.extendedBuild = true ∧ ∃ a w, RunningAt s a w ∧ w = wordOf 0 10) := by
  obtain hext | ⟨a, w, hrun, hexec⟩ := step_field_cases State.ext State.enter_ext h
  · exact .inl hext
  · exact (exec_ext_cases hexec).imp_right fun ⟨hi, hacc, hext⟩ =>
      ⟨hext, (Bool.and_eq_true_iff.mp hacc).1, a, w, hrun, State.eq_encode_of_decodeWord hi⟩

theorem step_acc_cases {s t : State} (h : step s = .next t) :
    t.acc = s.acc ∨ ∃ a w x, RunningAt s a w ∧ (w = wordOf 1 x ∨ w = wordOf 2 x ∨ w = wordOf 5 x) := by
  obtain hacc | ⟨a, w, hrun, hexec⟩ := step_field_cases State.acc State.enter_acc h
  · exact .inl hacc
  · exact (exec_acc_cases hexec).imp_right fun ⟨x, hi⟩ => ⟨a, w, x, hrun,
      hi.imp State.eq_encode_of_decodeWord (Or.imp State.eq_encode_of_decodeWord State.eq_encode_of_decodeWord)⟩

theorem step_mem_cases {s t : State} (h : step s = .next t) :
    t.mem = s.mem ∨ ∃ a w x, RunningAt s a w ∧ w = wordOf 3 x ∧ t.mem = s.mem.write x s.acc := by
  obtain hmem | ⟨a, w, hrun, hexec⟩ := step_field_cases State.mem State.enter_mem h
  · exact .inl hmem
  · exact (exec_mem_cases hexec).imp_right fun ⟨x, hi, hmem⟩ =>
      ⟨a, w, x, hrun, State.eq_encode_of_decodeWord hi, hmem⟩

/-! ### The invariant -/

theorem State.stateExplained_of_running {s : State} (h : s.state = .running) : s.stateExplained = true := by
  simp [State.stateExplained, h]

theorem State.lastWord_setPc_nextPc (s : State) (a : Addr) :
    (s.setPc (nextPc a)).lastWord = some (s.mem.read a) := by
  simp [State.lastWord, nextPc]

/-- The state that the instruction fetched from `a` enters is explained by the word at `a`, which is the one
at `pc - 1` (R102, R182). -/
theorem State.stateExplained_stopState {s : State} {a : Addr} {c : CtrlState}
    (h : stopState s.extFlag (s.decodeWord (s.mem.read a)) = some c) :
    ((s.setPc (nextPc a)).enter c).stateExplained = true := by
  have hword : ((s.setPc (nextPc a)).enter c).lastWord = some (s.mem.read a) := s.lastWord_setPc_nextPc a
  have hinstr : ((s.setPc (nextPc a)).enter c).lastInstr = some (s.decodeWord (s.mem.read a)) := by
    rw [State.lastInstr, hword]
    rfl
  cases hi : s.decodeWord (s.mem.read a) with
  | add | sub | sto | lda | br | brz | brp => simp [hi, stopState] at h
  | inp | out | invalid4xx | invalid900 | invalid903 | invalid913 | invalidGated =>
    rw [hi] at h hinstr
    cases h
    simp [State.stateExplained, hinstr, Instr.isInvalid]
  | ina =>
    rw [hi, stopState, if_pos (State.extFlag_of_decodeWord (.inl hi))] at h
    cases h
    simp [State.stateExplained, hinstr, hi]
  | ota =>
    rw [hi, stopState, if_pos (State.extFlag_of_decodeWord (.inr hi))] at h
    cases h
    simp [State.stateExplained, hinstr, hi]
  | hlt x =>
    have hw : s.mem.read a = wordOf 0 x := State.eq_encode_of_decodeWord hi
    rw [hi] at h
    cases h
    simp [State.stateExplained, hword, hw, Laws.wordOf_val]
  | ext =>
    have hw : s.mem.read a = wordOf 0 10 := State.eq_encode_of_decodeWord hi
    rw [hi] at h
    cases h
    simp [State.stateExplained, hword, hw, Laws.wordOf_val]

theorem step_keeps_mem_wf {s t : State} (hwf : s.mem.wf = true) (h : step s = .next t) : t.mem.wf = true := by
  obtain hmem | ⟨-, -, x, -, -, hmem⟩ := step_mem_cases h
  · rwa [hmem]
  · exact hmem ▸ Memory.wf_write s.mem x s.acc hwf

theorem step_keeps_ext_build {s t : State} (hb : s.ext = true → s.cfg.extendedBuild = true)
    (h : step s = .next t) : t.ext = true → t.cfg.extendedBuild = true := by
  rw [step_cfg h]
  obtain hext | ⟨-, hbuild, -⟩ := step_ext_cases h
  · rwa [hext]
  · exact fun _ => hbuild

theorem step_keeps_stateExplained {s t : State} (hs : s.stateExplained = true) (h : step s = .next t) :
    t.stateExplained = true := by
  obtain ⟨-, rfl⟩ | ⟨-, hpc, rfl⟩ | ⟨hrun, a, -, hexec⟩ := step_cases h
  · exact hs
  · simp [State.stateExplained, hpc]
  · obtain hstate | ⟨c, hc, rfl⟩ := exec_state_cases hexec
    · exact State.stateExplained_of_running (hstate.trans hrun)
    · exact State.stateExplained_stopState hc

/-- Settles O37: a step keeps each of the three clauses, the last because an instruction that enters a
controller state writes nothing else, and so still stands at `pc - 1`. -/
theorem everyStepKeepsTheInvariant : Obligations.EveryStepKeepsTheInvariant := by
  intro s t ⟨hwf, hbuild, hexplained⟩ h
  exact ⟨step_keeps_mem_wf hwf h, step_keeps_ext_build hbuild h, step_keeps_stateExplained hexplained h⟩

/-! ### The program counter, the flags and the accumulator -/

/-- Settles O30, from `step_pc_cases`: a fetched address is at most 99, and so are two address digits. -/
theorem pcReaches100OnlyFromAddress99 : Obligations.PcReaches100OnlyFromAddress99 := by
  intro s t h
  obtain hpc | ⟨a, w, ⟨hrun, hat, hread⟩, hmove⟩ := step_pc_cases h
  · exact ⟨fun h100 => .inl (hpc ▸ h100), fun _ => hpc, fun hne => absurd hpc hne⟩
  refine ⟨fun h100 => .inr ⟨hrun, ?_⟩, fun h100 => by omega, fun _ => ?_⟩
  · obtain hnext | ⟨-, -, hbranch⟩ := hmove
    · have hval : t.pc.val = a.val + 1 := by rw [hnext]; rfl
      omega
    · omega
  · obtain hnext | hbranch := hmove
    · left
      rw [hnext, hat]
      rfl
    · exact .inr ⟨a, w, ⟨hrun, hat, hread⟩, hbranch⟩

/-- Settles O31, from `step_neg_cases` and `step_ext_cases`. -/
theorem onlySubWritesNegAndOnlyExtWritesExt : Obligations.OnlySubWritesNegAndOnlyExtWritesExt := by
  refine fun s t h => ⟨fun hne => ?_, fun hne => ?_⟩
  · obtain ⟨a, w, x, hrun, rfl⟩ := (step_neg_cases h).resolve_left hne
    refine ⟨a, _, hrun, ?_⟩
    simp only [Laws.wordOf_val]
    omega
  · obtain ⟨hext, -, a, w, hrun, rfl⟩ := (step_ext_cases h).resolve_left hne
    exact ⟨hext, a, _, hrun, rfl⟩

@[simp] theorem State.takeInput_acc (s : State) (v : Word) : (s.takeInput v).acc = v := rfl

@[simp] theorem State.releaseOutput_acc (s : State) :
    s.releaseOutput.acc = if s.cfg.outputClearsAcc then 0 else s.acc := by
  unfold State.releaseOutput
  split <;> rfl

/-- An output command writes `acc` only under `OUTPUT_CLEARS_ACC`, and then 0 (R168, R170). -/
theorem State.releaseOutput_clears {s : State} (h : s.releaseOutput.acc ≠ s.acc) :
    s.cfg.outputClearsAcc = true ∧ s.releaseOutput.acc = 0 := by
  rw [State.releaseOutput_acc] at h ⊢
  split at h
  next hclear => exact ⟨hclear, if_pos hclear⟩
  next => exact absurd rfl h

/-- Settles O32: a step by `step_acc_cases`, the other commands by the state that each leaves. -/
theorem theAccumulatorHasTheseWritersOnly : Obligations.TheAccumulatorHasTheseWritersOnly := by
  constructor
  · intro s t h hne
    obtain ⟨a, w, x, hrun, hw⟩ := (step_acc_cases h).resolve_left hne
    refine ⟨a, w, hrun, ?_⟩
    obtain rfl | rfl | rfl := hw <;> simp only [Laws.wordOf_val] <;> omega
  · intro c s hne
    cases c with
    | step | reset | load | loadBytes => simp
    | readState | dump => exact absurd rfl hne
    | input v =>
      rw [after_input] at hne ⊢
      split at hne
      next hs => simp [hs]
      next => exact absurd rfl hne
    | inputChar v =>
      rw [after_inputChar] at hne ⊢
      split at hne
      next hs => simp [hs]
      next => exact absurd rfl hne
    | output =>
      rw [after_output] at hne ⊢
      split at hne
      next hs => simpa [hs] using State.releaseOutput_clears hne
      next => exact absurd rfl hne
    | outputChar =>
      rw [after_outputChar] at hne ⊢
      split at hne
      next hs => simpa [hs] using State.releaseOutput_clears hne
      next => exact absurd rfl hne

/-! ### Memory -/

@[simp] theorem State.takeInput_mem (s : State) (v : Word) : (s.takeInput v).mem = s.mem := rfl

@[simp] theorem State.releaseOutput_mem (s : State) : s.releaseOutput.mem = s.mem := by
  unfold State.releaseOutput
  split <;> rfl

/-- The only commands that can leave another memory: a step and the two forms of load (R28, R223, R225). -/
theorem after_mem_cases (c : Command) (s : State) :
    (after c s).mem = s.mem ∨ c = .step ∨ (∃ img, c = .load img) ∨ (∃ P, c = .loadBytes P) := by
  cases c with
  | step | load | loadBytes => simp
  | reset | readState | dump => exact .inl rfl
  | input v => left; rw [after_input]; split <;> simp
  | inputChar v => left; rw [after_inputChar]; split <;> simp
  | output => left; rw [after_output]; split <;> simp
  | outputChar => left; rw [after_outputChar]; split <;> simp

theorem sameMemory_of_mem_eq {s t : State} (h : t.mem = s.mem) : SameMemory s t := fun a => by rw [h]

/-- Settles O33: a step by `step_mem_cases` and the law of a read after a write, the other commands by
`after_mem_cases`. -/
theorem onlyStoAndLoadWriteMemory : Obligations.OnlyStoAndLoadWriteMemory := by
  refine ⟨fun s t h => ?_, fun c s => (after_mem_cases c s).imp_left sameMemory_of_mem_eq⟩
  obtain hmem | ⟨a, w, x, hrun, rfl, hmem⟩ := step_mem_cases h
  · exact .inl (sameMemory_of_mem_eq hmem)
  · have hdigits : (wordOf 3 x).val % 100 = x.val := congrArg Fin.val (addrDigits_wordOf 3 x)
    have hval : (wordOf 3 x).val = 300 + x.val := Laws.wordOf_val 3 x
    refine .inr ⟨a, _, hrun, by omega, by omega, fun b => ?_⟩
    rw [hmem, Memory.read_write, hdigits]
    simp only [Fin.ext_iff]

/-- Where addresses rise, none is listed twice: a lookup reads the cell that is listed. -/
theorem Memory.lookup_of_mem {m : Memory} (hp : m.Pairwise fun c d => c.1 < d.1) {c : Nat × Word} (hc : c ∈ m) :
    m.lookup c.1 = c.2 := by
  induction m with
  | nil => simp at hc
  | cons d m ih =>
    obtain ⟨hlt, hp⟩ := List.pairwise_cons.mp hp
    obtain rfl | hc := List.mem_cons.mp hc
    · simp [Memory.lookup]
    · simp [Memory.lookup, (hlt c hc).ne, ih hp hc]

theorem Memory.mem_of_lookup_ne {m : Memory} {a : Nat} (h : m.lookup a ≠ Memory.unlisted) :
    (a, m.lookup a) ∈ m := by
  induction m with
  | nil => exact absurd rfl h
  | cons d m ih =>
    by_cases hd : d.1 = a
    · simp [Memory.lookup, ← hd]
    · simp only [Memory.lookup, hd, if_false] at h ⊢
      exact List.mem_cons_of_mem d (ih h)

/-- A memory in the canonical form lists exactly the words that it reads as and that are not the unlisted
word. -/
theorem Memory.mem_iff_read {m : Memory} (h : m.wf = true) (c : Nat × Word) :
    c ∈ m ↔ ∃ a : Addr, a.val = c.1 ∧ m.read a = c.2 ∧ c.2 ≠ Memory.unlisted := by
  obtain ⟨hp, hall⟩ := (Memory.wf_iff m).mp h
  constructor
  · intro hc
    obtain ⟨hlt, hne⟩ := hall c hc
    exact ⟨⟨c.1, hlt⟩, rfl, Memory.lookup_of_mem hp hc, hne⟩
  · rintro ⟨a, ha, hread, hne⟩
    rw [← hread] at hne
    have hmem := Memory.mem_of_lookup_ne hne
    rwa [← Memory.read, hread, ha] at hmem

/-- Settles O40: two memories in the form that read the same list the same cells, and in the same order, that
of rising addresses. -/
theorem memoriesThatReadTheSameAreEqual : Obligations.MemoriesThatReadTheSameAreEqual := by
  intro m n hm hn hread
  have hcells : ∀ c, c ∈ m ↔ c ∈ n := fun c => by
    rw [Memory.mem_iff_read hm, Memory.mem_iff_read hn]
    simp only [hread]
  have rising {l : Memory} (hl : l.wf = true) : l.Pairwise (InvImage (· < ·) Prod.fst) :=
    ((Memory.wf_iff l).mp hl).1
  exact (rising hm).eq_of_mem_iff (rising hn) hcells

end Sys2Proof.Machine

/-! PROOFS for 20_memory.md: memory is one array for the program and its data, so a store is seen by the next
fetch (R53). -/

namespace Sys2Proof.Machine

/-- The step of a Running block executes the fetched word, decoded, on the state with `pc` moved past it
(R102, R103, R104). -/
theorem step_of_runningAt {s : State} {a : Addr} {w : Word} (h : RunningAt s a w) :
    step s = exec (s.decodeWord w) (s.setPc (nextPc a)) := by
  obtain ⟨hrun, hpc, hread⟩ := h
  rw [step, if_pos hrun, s.fetch_of_pc a hpc, hread]

theorem State.decodeWord_sto (s : State) (x : Addr) : s.decodeWord (wordOf 3 x) = .sto x := by
  simp [State.decodeWord, decode]

/-- The step that fetches a STO from `a` stores `acc` and goes on after `a` (R102, R141). -/
theorem step_sto {s : State} {a x : Addr} (h : RunningAt s a (wordOf 3 x)) :
    step s = .next ((s.setPc (nextPc a)).setWord x s.acc) := by
  rw [step_of_runningAt h, State.decodeWord_sto]
  rfl

/-- Settles O34: the first step is `step_sto`, after which a read of the stored address gives `acc`, and the
step after that fetches there. -/
theorem aStoIsSeenByTheNextFetch : Obligations.AStoIsSeenByTheNextFetch := by
  intro s a b w h hb hw
  obtain rfl : w = wordOf 3 b := Fin.ext hw
  have hnext : RunningAt ((s.setPc (nextPc a)).setWord b s.acc) b s.acc := by
    refine ⟨h.1, hb.symm, ?_⟩
    rw [State.setWord_mem, Memory.read_write, if_pos rfl]
  exact ⟨_, step_sto h, hnext, step_of_runningAt hnext⟩

end Sys2Proof.Machine

/-! PROOFS for 30_encoding.md: the decoder and the encoder are inverse on the well-formed instructions of each mode,
so the words of a mode are known from its instructions (R64, R65, R66, R68, R69). -/

namespace Sys2Proof.Machine

/-! ### Decoding an encoding -/

theorem decode_wordOf_zero (b e : Bool) (x : Addr) : decode b e (wordOf 0 x) = decodeZero b x := by
  simp [decode]

theorem decode_wordOf_nine (b e : Bool) (f : Addr) : decode b e (wordOf 9 f) = decodeIo b e f := by
  simp [decode]

theorem decodeIo_invalid903 {b e : Bool} {f : Addr} (h : Instr.wf b e (.invalid903 f) = true) :
    decodeIo b e f = .invalid903 f := by
  obtain ⟨hlow, hhigh⟩ : 3 ≤ f.val ∧ f.val ≤ 10 := by simpa [Instr.wf] using h
  rw [decodeIo, if_neg (by omega), if_neg (by omega), if_neg (by omega), if_pos hhigh]

theorem decodeIo_invalid913 {b e : Bool} {f : Addr} (h : Instr.wf b e (.invalid913 f) = true) :
    decodeIo b e f = .invalid913 f := by
  have hlow : 13 ≤ f.val := by simpa [Instr.wf] using h
  rw [decodeIo, if_neg (by omega), if_neg (by omega), if_neg (by omega), if_neg (by omega),
    if_neg (by omega), if_neg (by omega)]

/-- The digits and the mode that make 911 and 912 invalid (R64). -/
theorem wf_invalidGated_iff {b e : Bool} {f : Addr} :
    Instr.wf b e (.invalidGated f) = true ↔ (f = 11 ∨ f = 12) ∧ extendedMode b e = false := by
  simp [Instr.wf, Fin.ext_iff]

theorem decodeIo_invalidGated {b e : Bool} {f : Addr} (h : Instr.wf b e (.invalidGated f) = true) :
    decodeIo b e f = .invalidGated f := by
  obtain ⟨rfl | rfl, hmode⟩ := wf_invalidGated_iff.mp h <;> simp [decodeIo, hmode]

/-- The decoder gives back every instruction that stands in the decode map of its mode. -/
theorem decode_encode {b e : Bool} {i : Instr} (h : Instr.wf b e i = true) : decode b e (encode i) = i := by
  cases i with
  | add | sub | sto | invalid4xx | lda | br | brz | brp => simp [encode, decode]
  | hlt x =>
    have hx : (b && decide (x.val = 10)) = false := by simpa only [Instr.wf, Bool.not_eq_true'] using h
    rw [encode, decode_wordOf_zero, decodeZero, if_neg (Bool.eq_false_iff.mp hx)]
  | ext =>
    obtain rfl : b = true := h
    rfl
  | invalid900 | inp | out => exact decode_wordOf_nine b e _
  | ina | ota =>
    have hmode : extendedMode b e = true := h
    rw [encode, decode_wordOf_nine]
    simp [decodeIo, hmode]
  | invalid903 f => exact (decode_wordOf_nine b e f).trans (decodeIo_invalid903 h)
  | invalid913 f => exact (decode_wordOf_nine b e f).trans (decodeIo_invalid913 h)
  | invalidGated f => exact (decode_wordOf_nine b e f).trans (decodeIo_invalidGated h)

/-- Settles O21, by `decode_encode`: HLT and the invalid forms keep their digits (log entry 17). -/
theorem decodeOfEncodeIsTheInstruction : Obligations.DecodeOfEncodeIsTheInstruction :=
  fun _ _ _ => decode_encode

/-- Settles O22, by the two facts about a decoded word: it is in the decode map and keeps every digit. -/
theorem encodeOfDecodeIsTheWord : Obligations.EncodeOfDecodeIsTheWord :=
  fun b e w => ⟨wf_decode b e w, encode_decode b e w⟩

/-- What a word decodes to, said from the instruction's side. -/
theorem decode_eq_iff {b e : Bool} {w : Word} {i : Instr} :
    decode b e w = i ↔ Instr.wf b e i = true ∧ encode i = w := by
  constructor
  · rintro rfl
    exact ⟨wf_decode b e w, encode_decode b e w⟩
  · rintro ⟨hwf, rfl⟩
    exact decode_encode hwf

/-- Settles O24: each instruction stands in the map of its mode and is encoded by the sample word. -/
theorem sampleWordsDecodeAsTheMapSays : Obligations.SampleWordsDecodeAsTheMapSays := by
  unfold Obligations.SampleWordsDecodeAsTheMapSays
  simp only [decode_eq_iff]
  decide

/-! ### The invalid words -/

/-- Every well-formed instruction is encoded in its row of the opcode table. -/
theorem encode_mem_rowRange (i : Instr) : Laws.EncodeInRow.Statement i := by
  cases i with
  | hlt x => exact Laws.EncodeInRow.hlt x
  | ext => exact Laws.EncodeInRow.ext
  | add a => exact Laws.EncodeInRow.add a
  | sub a => exact Laws.EncodeInRow.sub a
  | sto a => exact Laws.EncodeInRow.sto a
  | invalid4xx x => exact Laws.EncodeInRow.invalid4xx x
  | lda a => exact Laws.EncodeInRow.lda a
  | br a => exact Laws.EncodeInRow.br a
  | brz a => exact Laws.EncodeInRow.brz a
  | brp a => exact Laws.EncodeInRow.brp a
  | invalid900 => exact Laws.EncodeInRow.invalid900
  | inp => exact Laws.EncodeInRow.inp
  | out => exact Laws.EncodeInRow.out
  | invalid903 f => exact Laws.EncodeInRow.invalid903 f
  | ina => exact Laws.EncodeInRow.ina
  | ota => exact Laws.EncodeInRow.ota
  | invalid913 f => exact Laws.EncodeInRow.invalid913 f
  | invalidGated f => exact Laws.EncodeInRow.invalidGated f

/-- The invalid instructions of a mode are those whose row lies in the invalid words (R66). The rows of INA
and OTA meet the row of the gated words: there the mode decides. -/
theorem isInvalid_iff_invalidWord_encode {b e : Bool} {i : Instr} (h : Instr.wf b e i = true) :
    i.isInvalid = true ↔ InvalidWord (b && e) (encode i).val := by
  obtain ⟨hlow, hhigh⟩ := encode_mem_rowRange i b e h
  cases i with
  | hlt | ext | add | sub | sto | lda | br | brz | brp | inp | out =>
    simp only [Laws.rowRange] at hlow hhigh
    simp only [Instr.isInvalid, Bool.false_eq_true, false_iff]
    omega
  | ina | ota =>
    have hmode : (b && e) = true := h
    simp [Instr.isInvalid, hmode, encode, Laws.wordOf_val]
  | invalid4xx | invalid900 | invalid903 | invalid913 =>
    simp only [Laws.rowRange] at hlow hhigh
    simp only [Instr.isInvalid, true_iff]
    omega
  | invalidGated f =>
    obtain ⟨-, hmode⟩ := wf_invalidGated_iff.mp h
    simp only [Laws.rowRange] at hlow hhigh
    exact iff_of_true rfl (.inr (.inr (.inr (.inr ⟨by omega, hmode⟩))))

theorem isInvalid_decode (b e : Bool) (w : Word) :
    (decode b e w).isInvalid = true ↔ InvalidWord (b && e) w.val := by
  rw [isInvalid_iff_invalidWord_encode (wf_decode b e w), encode_decode]

/-- Settles O19: the words by `isInvalid_decode`; each of the five meanings is `State.enterInvalid`. -/
theorem invalidWordsEnterInvalidInstruction : Obligations.InvalidWordsEnterInvalidInstruction :=
  ⟨isInvalid_decode, fun _ _ => rfl, fun _ => rfl, fun _ _ => rfl, fun _ _ => rfl, fun _ _ => rfl⟩

/-! ### The mode -/

/-- An instruction that stands in the decode maps of two modes is decoded from the same word in both. -/
theorem decode_eq_of_wf {b e b' e' : Bool} {w : Word} (h : Instr.wf b' e' (decode b e w) = true) :
    decode b e w = decode b' e' w :=
  (decode_eq_iff.mpr ⟨h, encode_decode b e w⟩).symm

theorem encode_invalidGated_val {b e : Bool} {f : Addr} (h : Instr.wf b e (.invalidGated f) = true) :
    (encode (.invalidGated f)).val = 911 ∨ (encode (.invalidGated f)).val = 912 := by
  obtain ⟨rfl | rfl, -⟩ := wf_invalidGated_iff.mp h
  · exact .inl rfl
  · exact .inr rfl

/-- Only the instructions of 911 and 912 ask for a value of the flag. -/
theorem wf_of_ext {b e : Bool} (e' : Bool) {i : Instr} (h911 : (encode i).val ≠ 911)
    (h912 : (encode i).val ≠ 912) (h : Instr.wf b e i = true) : Instr.wf b e' i = true := by
  cases i with
  | ina => exact absurd rfl h911
  | ota => exact absurd rfl h912
  | invalidGated f => exact absurd (encode_invalidGated_val h) (not_or.mpr ⟨h911, h912⟩)
  | _ => exact h

/-- Only the instructions of 010, 911 and 912 ask for a build. -/
theorem wf_of_build {b e : Bool} (b' : Bool) {i : Instr} (h10 : (encode i).val ≠ 10)
    (h911 : (encode i).val ≠ 911) (h912 : (encode i).val ≠ 912) (h : Instr.wf b e i = true) :
    Instr.wf b' e i = true := by
  cases i with
  | hlt x =>
    have hx : x.val ≠ 10 := by simpa [encode, Laws.wordOf_val] using h10
    simp [Instr.wf, hx]
  | ext => exact absurd rfl h10
  | ina => exact absurd rfl h911
  | ota => exact absurd rfl h912
  | invalidGated f => exact absurd (encode_invalidGated_val h) (not_or.mpr ⟨h911, h912⟩)
  | _ => exact h

theorem decode_eq_of_ext (b e e' : Bool) {w : Word} (h911 : w.val ≠ 911) (h912 : w.val ≠ 912) :
    decode b e w = decode b e' w :=
  decode_eq_of_wf (wf_of_ext e' (by rwa [encode_decode]) (by rwa [encode_decode]) (wf_decode b e w))

theorem decode_eq_of_build (b b' e : Bool) {w : Word} (h10 : w.val ≠ 10) (h911 : w.val ≠ 911)
    (h912 : w.val ≠ 912) : decode b e w = decode b' e w :=
  decode_eq_of_wf (wf_of_build b' (by rwa [encode_decode]) (by rwa [encode_decode]) (by rwa [encode_decode])
    (wf_decode b e w))

/-- In a base build the decoder does not look at the flag (R24). -/
theorem decode_base (e e' : Bool) (w : Word) : decode false e w = decode false e' w := rfl

/-- In an extended build 911 and 912 are invalid exactly without the flag. -/
theorem isInvalid_decode_gated (e : Bool) {w : Word} (hw : w.val = 911 ∨ w.val = 912) :
    (decode true e w).isInvalid = true ↔ e = false := by
  rw [isInvalid_decode, Bool.true_and]
  constructor
  · rintro (h | h | h | h | ⟨-, he⟩)
    case inr.inr.inr.inr => exact he
    all_goals omega
  · exact fun he => .inr (.inr (.inr (.inr ⟨hw, he⟩)))

/-- Settles O23: where no instruction asks for the flag or the build, both modes decode alike; at 911 and 912
the flag decides whether the word is invalid. -/
theorem modeChangesOnly911And912 : Obligations.ModeChangesOnly911And912 := by
  refine ⟨fun b e e' w hne => ⟨?_, ?_, ?_⟩, fun e e' w hne hw heq => ?_, fun b b' e w hne => ?_⟩
  · by_contra hb
    rw [Bool.not_eq_true] at hb
    subst hb
    exact hne (decode_base e e' w)
  · rintro rfl
    exact hne rfl
  · by_contra hw
    obtain ⟨h911, h912⟩ := not_or.mp hw
    exact hne (decode_eq_of_ext b e e' h911 h912)
  · have hiff : e = false ↔ e' = false := by
      rw [← isInvalid_decode_gated e hw, heq, isInvalid_decode_gated e' hw]
    exact hne (Bool.eq_iff_iff.mpr (by simpa using not_congr hiff))
  · by_contra hw
    simp only [not_or] at hw
    obtain ⟨h10, h911, h912⟩ := hw
    exact hne (decode_eq_of_build b b' e h10 h911 h912)

/-! ### A placed table word -/

theorem decodeTableWord_eq_some {nbits n : Nat} {i : Instr} (h : decodeTableWord nbits n = some i) :
    ∃ w, wordOfNat n = some w ∧ decode true true w = i :=
  Option.map_eq_some_iff.mp h

theorem State.withFetchWord_of_wordOfNat (s : State) (nbits : Nat) {n : Nat} {w : Word}
    (h : wordOfNat n = some w) : s.withFetchWord nbits n = s.placeWord w := by
  simp only [State.withFetchWord, h]

/-- Where `State.placeWord` puts a word: at `pc`, or at 0 at the end of memory. -/
def State.placeAddr (s : State) : Addr := s.fetchAddr.getD 0

theorem State.placeAddr_of_lt {s : State} (h : s.pc.val < 100) : s.placeAddr.val = s.pc.val := by
  simp [State.placeAddr, (s.fetchAddr_eq_some ⟨s.pc.val, h⟩).mpr rfl]

theorem State.placeAddr_at_end {s : State} (h : s.pc.val = 100) : s.placeAddr.val = 0 := by
  simp [State.placeAddr, s.fetchAddr_eq_none.mpr h]

@[simp] theorem State.placeWord_pc (s : State) (w : Word) : (s.placeWord w).pc.val = s.placeAddr.val := rfl

@[simp] theorem State.placeWord_mem (s : State) (w : Word) :
    (s.placeWord w).mem = s.mem.write s.placeAddr w := rfl

theorem State.runningAt_placeWord (s : State) (w : Word) : RunningAt (s.placeWord w) s.placeAddr w :=
  ⟨rfl, rfl, by rw [State.placeWord_mem, Memory.read_write, if_pos rfl]⟩

theorem State.placeWord_extendedBuild {s : State} {w : Word} (h : w.val = 10 ∨ w.val = 911 ∨ w.val = 912) :
    (s.placeWord w).cfg.extendedBuild = true := by
  obtain h | h | h := h <;> simp [State.placeWord, h]

theorem State.placeWord_ext {s : State} {w : Word} (h : w.val = 911 ∨ w.val = 912) :
    (s.placeWord w).ext = true := by
  obtain h | h := h <;> simp [State.placeWord, h]

/-- A placed word is decoded as in extended mode: for 010, 911 and 912 the build and the flag are set; no
other word asks for them. -/
theorem State.decodeWord_placeWord (s : State) (w : Word) : (s.placeWord w).decodeWord w = decode true true w := by
  rw [State.decodeWord]
  by_cases hgated : w.val = 911 ∨ w.val = 912
  · rw [State.extFlag, State.placeWord_extendedBuild (.inr hgated), State.placeWord_ext hgated, Bool.and_self]
  · obtain ⟨h911, h912⟩ := not_or.mp hgated
    rw [decode_eq_of_ext _ _ true h911 h912]
    by_cases h10 : w.val = 10
    · rw [State.placeWord_extendedBuild (.inl h10)]
    · exact decode_eq_of_build _ true true h10 h911 h912

/-- Settles O52: the placed word stands at the fetch address of a Running block and decodes as in the table. -/
theorem aPlacedTableWordIsRunByTheNextStep : Obligations.APlacedTableWordIsRunByTheNextStep := by
  intro s nbits n i h
  obtain ⟨w, hw, rfl⟩ := decodeTableWord_eq_some h
  rw [s.withFetchWord_of_wordOfNat nbits hw]
  refine ⟨s.placeAddr, State.placeAddr_of_lt, State.placeAddr_at_end, s.placeWord_pc w, fun b hb => ?_, ?_⟩
  · rw [State.placeWord_mem, Memory.read_write, if_neg hb]
  · rw [step_of_runningAt (s.runningAt_placeWord w), State.decodeWord_placeWord]
    rfl

end Sys2Proof.Machine

/-! PROOFS for 40_controller.md: what a step is in each case, and that it is the pseudocode of R105; a branch to its
own address; the transitions of the commands (R100 to R106, R108, R111). -/

namespace Sys2Proof.Machine

/-- Settles O28: an instruction answers by its arm of the dispatch, a step by its fetch. -/
theorem everyStepAnswersANextState : Obligations.EveryStepAnswersANextState :=
  ⟨exec_total, step_total⟩

/-! ### The three cases of a step -/

/-- Settles O26: `step` looks at nothing else first (R100). -/
theorem stepWhileNotRunningChangesNothing : Obligations.StepWhileNotRunningChangesNothing :=
  fun _ hs => if_neg hs

/-- Settles O27: at the end of memory there is nothing to fetch. -/
theorem stepAtPc100EntersReachedEnd : Obligations.StepAtPc100EntersReachedEnd := by
  intro s hrun hpc
  rw [step, if_pos hrun, s.fetch_at_end hpc]
  rfl

/-- Settles O25: it is `step_of_runningAt`, with the flag written as it is read. -/
theorem stepRunsTheDecodedInstruction : Obligations.StepRunsTheDecodedInstruction :=
  fun _ _ _ h => step_of_runningAt h

/-! ### The pseudocode -/

theorem wordOf_div_hundred (op : Fin 10) (x : Addr) : (wordOf op x).val / 100 = op.val :=
  opDigit_wordOf op x

theorem wordOf_mod_hundred (op : Fin 10) (x : Addr) : (wordOf op x).val % 100 = x.val :=
  congrArg Fin.val (addrDigits_wordOf op x)

theorem wordOf_val_add (op : Fin 10) (x : Addr) : (wordOf op x).val = x.val + 100 * op.val :=
  Nat.add_comm _ _

/-- The pseudocode on a 0xx word: EXT for 010 of an extended build, a halt otherwise. -/
theorem executeBySource_zero (a x : Addr) (s : State) :
    executeBySource a (wordOf 0 x) s =
      if x.val = 10 ∧ s.cfg.extendedBuild = true then
        if s.cfg.extScope = .anywhere ∨ a.val = 0 then (s.setPc (nextPc a)).setExt true
        else (s.setPc (nextPc a)).enter .halted
      else (s.setPc (nextPc a)).enter .halted := by
  have hne {k : Nat} (hk : 100 ≤ k) : x.val ≠ k := by omega
  simp only [executeBySource, wordOf_div_hundred, wordOf_mod_hundred]
  simp [wordOf_val_add, hne, State.setPc, State.setExt, State.enter, nextPc]

/-- The pseudocode on a 4xx word: the branch that is left. -/
theorem executeBySource_four (a x : Addr) (s : State) :
    executeBySource a (wordOf 4 x) s = (s.setPc (nextPc a)).enterInvalid := by
  have hne {k : Nat} (hk : 100 ≤ k) : x.val ≠ k := by omega
  simp only [executeBySource, wordOf_div_hundred, wordOf_mod_hundred]
  simp [wordOf_val_add, hne, State.setPc, State.enterInvalid, State.enter, nextPc]

/-- The pseudocode on a 9xx word: a suspension or the invalid stop, by the subfunction digits. -/
theorem executeBySource_nine (a f : Addr) (s : State) :
    executeBySource a (wordOf 9 f) s =
      if f.val = 1 then (s.setPc (nextPc a)).enter .awaitingInput
      else if f.val = 2 then (s.setPc (nextPc a)).enter .awaitingOutput
      else if f.val = 11 ∧ s.extFlag = true then (s.setPc (nextPc a)).enter .awaitingCharInput
      else if f.val = 12 ∧ s.extFlag = true then (s.setPc (nextPc a)).enter .awaitingCharOutput
      else (s.setPc (nextPc a)).enterInvalid := by
  have hge : ¬ f.val + 900 < 100 := by omega
  simp only [executeBySource, wordOf_div_hundred, wordOf_mod_hundred]
  simp [wordOf_val_add, hge, State.extFlag, State.setPc, State.enterInvalid, State.enter, nextPc]

theorem executeBySource_nine_invalid {a f : Addr} {s : State} (h1 : f.val ≠ 1) (h2 : f.val ≠ 2)
    (hgated : f.val = 11 ∨ f.val = 12 → s.extFlag = false) :
    executeBySource a (wordOf 9 f) s = (s.setPc (nextPc a)).enterInvalid := by
  rw [executeBySource_nine, if_neg h1, if_neg h2, if_neg, if_neg]
  · rintro ⟨h12, hext⟩
    simp [hgated (.inr h12)] at hext
  · rintro ⟨h11, hext⟩
    simp [hgated (.inl h11)] at hext

/-- After the fetch, the scope of EXT is judged by the address of its word (R181). -/
theorem State.extAccepted_setPc_nextPc {s : State} (a : Addr) (hbuild : s.cfg.extendedBuild = true) :
    (s.setPc (nextPc a)).extAccepted = true ↔ s.cfg.extScope = .anywhere ∨ a.val = 0 := by
  rw [State.extAccepted, State.setPc_cfg, hbuild, Bool.true_and, Bool.or_eq_true, decide_eq_true_eq]
  simp [State.fetchedAtZero, nextPc]

/-- After the fetch, every instruction of the decode map does what the pseudocode does on its word. -/
theorem exec_eq_executeBySource {s : State} (a : Addr) {i : Instr}
    (h : Instr.wf s.cfg.extendedBuild s.extFlag i = true) :
    exec i (s.setPc (nextPc a)) = .next (executeBySource a (encode i) s) := by
  cases i with
  | add x | sub x | sto x | lda x | br x =>
    simp only [encode, executeBySource, wordOf_div_hundred, wordOf_mod_hundred]
    rfl
  | brz x =>
    simp only [encode, executeBySource, wordOf_div_hundred, wordOf_mod_hundred, exec, execBrz, isZero,
      decide_eq_true_eq]
    rfl
  | brp x =>
    simp only [encode, executeBySource, wordOf_div_hundred, wordOf_mod_hundred, exec, execBrp,
      ← Bool.not_eq_true, ite_not]
    rfl
  | ext =>
    rw [encode, executeBySource_zero, if_pos ⟨rfl, h⟩, exec, execExt]
    simp only [State.extAccepted_setPc_nextPc a h]
  | hlt x =>
    rw [encode, executeBySource_zero, if_neg]
    · rfl
    · rintro ⟨hx, hbuild⟩
      simp [Instr.wf, hx, hbuild] at h
  | invalid4xx x => rw [encode, executeBySource_four, exec, execInvalid4xx]
  | inp | out | invalid900 => rfl
  | ina | ota =>
    have hext : s.extFlag = true := (Bool.and_eq_true_iff.mp h).2
    rw [encode, executeBySource_nine]
    simp [exec, execIna, execOta, hext]
  | invalid903 f =>
    obtain ⟨hge, hle⟩ : 3 ≤ f.val ∧ f.val ≤ 10 := by simpa [Instr.wf] using h
    rw [encode, executeBySource_nine_invalid (by omega) (by omega) (by omega), exec, execInvalid903]
  | invalid913 f =>
    have hge : 13 ≤ f.val := by simpa [Instr.wf] using h
    rw [encode, executeBySource_nine_invalid (by omega) (by omega) (by omega), exec, execInvalid913]
  | invalidGated f =>
    obtain ⟨hf, hmode⟩ := wf_invalidGated_iff.mp h
    have hval : f.val = 11 ∨ f.val = 12 := hf.imp (congrArg Fin.val) (congrArg Fin.val)
    have hext : s.extFlag = false := by simpa [extendedMode, State.extFlag] using hmode
    rw [encode, executeBySource_nine_invalid (by omega) (by omega) fun _ => hext, exec, execInvalidGated]

/-- Settles O29: both functions have the three cases of a step; the fetched word is the encoding of an instruction of
the decode map, so `exec_eq_executeBySource` is about it. -/
theorem stepIsThePseudocodeOfTheSpec : Obligations.StepIsThePseudocodeOfTheSpec := by
  intro s
  unfold stepBySource
  split_ifs with hstop hpc
  · exact stepWhileNotRunningChangesNothing s hstop
  · have hrun : RunningAt s ⟨s.pc.val, hpc⟩ _ := ⟨not_not.mp hstop, rfl, rfl⟩
    rw [step_of_runningAt hrun, State.decodeWord, exec_eq_executeBySource _ (wf_decode _ _ _), encode_decode]
  · exact stepAtPc100EntersReachedEnd s (not_not.mp hstop) (by omega)

/-! ### A branch to its own address -/

/-- A step that answers its own state is repeated without end. -/
theorem run_of_step_self {M : Host.Core} {s : M.State} (h : M.step s = .next s) (n : Nat) :
    M.run n s = .next s := by
  induction n with
  | zero => rfl
  | succ n ih =>
    rw [Host.Core.run, h]
    exact ih

/-- A Running block whose step answers its own state has not returned from a run within any bound. -/
theorem runWithin_of_step_self {s : State} (hrun : s.state = .running) (h : step s = .next s) (n : Nat) :
    runWithin n s = none := by
  induction n with
  | zero => rw [runWithin, if_pos hrun]
  | succ n ih =>
    rw [runWithin, if_pos hrun, h]
    exact ih

theorem State.decodeWord_br (s : State) (x : Addr) : s.decodeWord (wordOf 6 x) = .br x := by
  simp [State.decodeWord, decode]

/-- The branch puts back the `pc` that the fetch has moved (R150). -/
theorem step_br_self {s : State} {a : Addr} (h : RunningAt s a (wordOf 6 a)) : step s = .next s := by
  have ⟨_, hpc, _⟩ := h
  have htarget : branchTarget a = s.pc := Fin.ext hpc.symm
  calc step s = .next (s.setPc (branchTarget a)) := by rw [step_of_runningAt h, State.decodeWord_br]; rfl
    _ = .next s := by rw [htarget]; rfl

/-- Settles O51: the step answers its own state, by `step_br_self`. -/
theorem aBranchToItselfRunsForever : Obligations.ABranchToItselfRunsForever := by
  intro s a w h hw
  obtain rfl : w = wordOf 6 a := Fin.ext hw
  have hself := step_br_self h
  refine ⟨run_of_step_self (M := Sys2Proof.core) hself, fun t ⟨n, hn⟩ => ?_⟩
  rw [runWithin_of_step_self h.1 hself n] at hn
  exact Option.some_ne_none t hn.symm

/-! ### Commands -/

/-- A command that acts in one case only and has changed the controller state was issued in that case. -/
theorem cond_of_after_state_ne {p : Prop} [Decidable p] {c : Command} {s t : State}
    (hafter : after c s = if p then t else s) (hne : (after c s).state ≠ s.state) : p ∧ after c s = t := by
  by_cases hp : p
  · exact ⟨hp, by rw [hafter, if_pos hp]⟩
  · exact absurd (by rw [hafter, if_neg hp]) hne

/-- Settles O35: an I/O command that has acted has found its own suspension. -/
theorem commandsMakeTheseStateTransitionsOnly : Obligations.CommandsMakeTheseStateTransitionsOnly := by
  intro c s hc hne
  cases c with
  | step => exact absurd rfl hc
  | readState | dump => exact absurd rfl hne
  | reset | load => exact ⟨rfl, by simp⟩
  | loadBytes P =>
    rw [after_loadBytes] at hne ⊢
    split at hne
    next => exact ⟨rfl, by simp⟩
    next => exact absurd rfl hne
  | input v =>
    obtain ⟨hs, hafter⟩ := cond_of_after_state_ne (after_input v s) hne
    exact ⟨by rw [hafter, State.takeInput_state], by simp [hs]⟩
  | inputChar v =>
    obtain ⟨hs, hafter⟩ := cond_of_after_state_ne (after_inputChar v s) hne
    exact ⟨by rw [hafter, State.takeInput_state], by simp [hs]⟩
  | output =>
    obtain ⟨hs, hafter⟩ := cond_of_after_state_ne (after_output s) hne
    exact ⟨by rw [hafter, State.releaseOutput_state], by simp [hs]⟩
  | outputChar =>
    obtain ⟨hs, hafter⟩ := cond_of_after_state_ne (after_outputChar s) hne
    exact ⟨by rw [hafter, State.releaseOutput_state], by simp [hs]⟩

end Sys2Proof.Machine

/-! PROOFS for 41_arithmetic.md: the bounded-numeral unit against ordinary arithmetic (R120, R121, R122), and ADD and
SUB over it (R123, R124). -/

namespace Sys2Proof.Machine

/-! ### The range check -/

@[simp] theorem tryFrom_val (v : Word) : tryFrom v.val = .ok v := tryFrom_of_le (by omega)

theorem offerInput_of_gt {n : Nat} (h : 999 < n) (s : State) : offerInput n s = .error (.range ⟨n⟩) := by
  rw [offerInput, tryFrom_of_gt h]

theorem offerInput_val (v : Word) (s : State) : offerInput v.val s = input v s := by
  rw [offerInput, tryFrom_val]

/-- What a buffer that unpacks to an image is: not too long, and every field the image's word. The field is then in
range, so the model's `Fin.ofNat` has wrapped nothing (R198). -/
theorem unpack_eq_ok_iff {P : List Byte} {img : Image} :
    unpack P = .ok img ↔ P.length ≤ codecMaxBytes ∧ ∀ k : Addr, (img.get k).val = unpackField P k.val := by
  unfold unpack
  split_ifs with hlen
  · exact iff_of_false nofun fun h => absurd h.1 (by omega)
  · split
    next k hk =>
      have hlt : k < 100 := List.mem_range.mp (List.mem_of_find?_eq_some hk)
      have hbig : 999 < unpackField P k := by simpa using List.find?_some hk
      refine iff_of_false nofun fun h => ?_
      have hfield : (img.get ⟨k, hlt⟩).val = unpackField P k := h.2 ⟨k, hlt⟩
      omega
    next hnone =>
      have hle : ∀ k : Addr, unpackField P k.val ≤ 999 := fun k => by
        simpa using List.find?_eq_none.mp hnone k.val (List.mem_range.mpr k.isLt)
      have hword : ∀ k : Addr, (Fin.ofNat 1000 (unpackField P k.val)).val = unpackField P k.val := fun k =>
        Nat.mod_eq_of_lt (Nat.lt_succ_of_le (hle k))
      constructor
      · intro h
        rw [← Except.ok.inj h]
        exact ⟨by omega, fun k => by rw [Vector.get_ofFn, hword]⟩
      · refine fun h => congrArg Except.ok (Vector.ext fun i hi => Fin.ext ?_)
        rw [Vector.getElem_ofFn, hword ⟨i, hi⟩]
        exact (h.2 ⟨i, hi⟩).symm

/-- Settles O4: the check itself has two cases; a host value goes through it, and a field of an unpacked image is
in range by `unpack_eq_ok_iff`. -/
theorem rangeCheckAdmitsExactly0To999 : Obligations.RangeCheckAdmitsExactly0To999 :=
  ⟨fun _ => rfl,
    fun _ hn => ⟨_, rfl, tryFrom_of_le hn⟩,
    fun _ hn => tryFrom_of_gt hn,
    fun _ s hn => offerInput_of_gt hn s,
    offerInput_val,
    fun _ _ k h => ((unpack_eq_ok_iff.mp h).2 k).symm⟩

/-! ### ADD and SUB -/

/-- An instruction with an address that stands in every decode map is selected by its one word: base code plus
address (R61, R64). -/
theorem decode_eq_iff_val {b e : Bool} {w : Word} {i : Instr} {op : Fin 10} {x : Addr}
    (hwf : Instr.wf b e i = true) (henc : encode i = wordOf op x) :
    decode b e w = i ↔ w.val = 100 * op.val + x.val := by
  rw [decode_eq_iff, henc, Fin.ext_iff, Laws.wordOf_val]
  exact ⟨fun h => h.2.symm, fun h => ⟨hwf, h.symm⟩⟩

theorem exec_add (a : Addr) (s : State) :
    exec (.add a) s = .next { s with acc := add s.acc (s.mem.read a) } := rfl

/-- SUB writes both outputs of the subtracter, taken from the values before (R124). -/
theorem exec_sub (a : Addr) (s : State) :
    exec (.sub a) s =
      .next { s with acc := subResult s.acc (s.mem.read a), neg := borrow s.acc (s.mem.read a) } := rfl

/-- The subtracter's result on naturals is the integer formula of R122: the sum `a + 1000` is at least `b`, so the
natural subtraction is exact. -/
theorem subResult_val_int (a b : Word) :
    (((subResult a b).val : Nat) : Int) = ((a.val : Int) - b.val + 1000) % 1000 := by
  rw [subResult_val]
  omega

theorem borrow_iff_lt (a b : Word) : borrow a b = true ↔ a.val < b.val := decide_eq_true_iff

/-- Settles O5: ADD is the row of base code 100 and writes the adder's sum. -/
theorem addAddsTheOperandModulo1000 : Obligations.AddAddsTheOperandModulo1000 :=
  ⟨fun _ _ _ _ => decode_eq_iff_val (op := 1) rfl rfl,
    fun a s => ⟨_, add_val s.acc (s.mem.read a), exec_add a s⟩⟩

/-- Settles O6: SUB is the row of base code 200 and writes the subtracter's result and borrow. -/
theorem subSubtractsAndSetsTheBorrow : Obligations.SubSubtractsAndSetsTheBorrow :=
  ⟨fun _ _ _ _ => decode_eq_iff_val (op := 2) rfl rfl,
    fun a s => ⟨_, subResult_val_int s.acc (s.mem.read a), exec_sub a s⟩⟩

/-! ### The unit -/

/-- Settles O1, by the adder's value; a numeral is in range by its type. -/
theorem adderIsModulo1000 : Obligations.AdderIsModulo1000 :=
  fun a b => ⟨add_val a b, Nat.le_of_lt_succ (add a b).isLt⟩

/-- Settles O2: the result by `subResult_val_int`, the flag by `borrow_iff_lt` in both of R122's forms. -/
theorem subtracterGivesResultAndBorrow : Obligations.SubtracterGivesResultAndBorrow := by
  intro a b
  have hborrow : (subtract a b).2 = true ↔ a.val < b.val := borrow_iff_lt a b
  exact ⟨by omega, by omega, subResult_val_int a b, Nat.le_of_lt_succ (subtract a b).1.isLt, hborrow,
    hborrow.trans (by omega)⟩

end Sys2Proof.Machine

/-! PROOFS for 42_load_store.md: LDA and STO, one read and one write of a whole word of memory (R140, R141). -/

namespace Sys2Proof.Machine

/-- STO writes memory and no register or flag (R141). -/
theorem exec_sto (a : Addr) (s : State) : exec (.sto a) s = .next { s with mem := s.mem.write a s.acc } := rfl

/-- LDA writes `acc` and nothing else; `neg` stays by D4 (R140). -/
theorem exec_lda (a : Addr) (s : State) : exec (.lda a) s = .next { s with acc := s.mem.read a } := rfl

theorem Memory.read_write_same (m : Memory) (a : Addr) (v : Word) : (m.write a v).read a = v := by
  rw [Memory.read_write, if_pos rfl]

theorem Memory.read_write_ne (m : Memory) {a b : Addr} (v : Word) (h : b ≠ a) :
    (m.write a v).read b = m.read b := by
  rw [Memory.read_write, if_neg h]

/-- Settles O7: STO is the row of base code 300; what it stores is read back by the laws of a read after a write,
and a write keeps the form of memory. -/
theorem stoStoresTheAccumulatorAtOneAddress : Obligations.StoStoresTheAccumulatorAtOneAddress :=
  ⟨fun _ _ _ _ => decode_eq_iff_val (op := 3) rfl rfl,
    fun a s => ⟨s.mem.write a s.acc, exec_sto a s, s.mem.read_write_same a s.acc,
      fun _ hb => s.mem.read_write_ne s.acc hb, s.mem.wf_write a s.acc⟩⟩

/-- Settles O8: LDA is the row of base code 500 and reads the operand's word. -/
theorem ldaLoadsTheOperand : Obligations.LdaLoadsTheOperand :=
  ⟨fun _ _ _ _ => decode_eq_iff_val (op := 5) rfl rfl, exec_lda⟩

end Sys2Proof.Machine

/-! PROOFS for 43_branch.md: BR, BRZ and BRP write `pc` or nothing, and a target is absolute (R150, R151, R152). -/

namespace Sys2Proof.Machine

/-- A branch target is the address itself, never the end-of-memory marker 100. -/
@[simp] theorem branchTarget_val (a : Addr) : (branchTarget a).val = a.val := rfl

/-- The value of `pc` after a branch that is taken under the condition `c`. -/
theorem ite_branchTarget_val (c : Prop) [Decidable c] (a : Addr) (p : Pc) :
    (if c then branchTarget a else p).val = if c then a.val else p.val := by
  rw [apply_ite Fin.val, branchTarget_val]

/-- A branch under a condition writes `pc` alone, with the target or with the `pc` that stands there. -/
theorem State.ite_branchTo (c : Prop) [Decidable c] (s : State) (a : Addr) :
    (if c then s.branchTo a else s) = { s with pc := if c then branchTarget a else s.pc } := by
  split
  next => rfl
  next => rfl

theorem exec_br (a : Addr) (s : State) : exec (.br a) s = .next { s with pc := branchTarget a } := rfl

theorem isZero_iff (v : Word) : isZero v = true ↔ v.val = 0 := decide_eq_true_iff

/-- BRZ reads `acc` and writes `pc` alone (R151). -/
theorem exec_brz (a : Addr) (s : State) :
    exec (.brz a) s = .next { s with pc := if s.acc.val = 0 then branchTarget a else s.pc } := by
  simp only [exec, execBrz, isZero_iff, State.ite_branchTo]

/-- BRP reads `neg` and writes `pc` alone; the model writes the branch not taken first (R152). -/
theorem exec_brp (a : Addr) (s : State) :
    exec (.brp a) s = .next { s with pc := if s.neg = false then branchTarget a else s.pc } := by
  rw [← State.ite_branchTo]
  simp only [exec, execBrp, ← Bool.not_eq_true, ite_not]

/-- Settles O9: BR is the row of base code 600 and writes its target; on its own address that is the `pc` before the
fetch, by `step_br_self`. -/
theorem brBranchesAbsolutely : Obligations.BrBranchesAbsolutely := by
  refine ⟨fun _ _ _ _ => decode_eq_iff_val (op := 6) rfl rfl,
    fun a s => ⟨_, branchTarget_val a, exec_br a s⟩, fun s a w h hw => ?_⟩
  obtain rfl : w = wordOf 6 a := Fin.ext hw
  exact step_br_self h

/-- Settles O10: BRZ is the row of base code 700, and its condition is on `acc` alone. -/
theorem brzBranchesExactlyOnZero : Obligations.BrzBranchesExactlyOnZero :=
  ⟨fun _ _ _ _ => decode_eq_iff_val (op := 7) rfl rfl,
    fun a s => ⟨_, ite_branchTarget_val _ a s.pc, exec_brz a s⟩⟩

/-- Settles O11: BRP is the row of base code 800, and its condition is on `neg` alone. -/
theorem brpBranchesExactlyWhenNotNegative : Obligations.BrpBranchesExactlyWhenNotNegative :=
  ⟨fun _ _ _ _ => decode_eq_iff_val (op := 8) rfl rfl,
    fun a s => ⟨_, ite_branchTarget_val _ a s.pc, exec_brp a s⟩⟩

end Sys2Proof.Machine

/-! PROOFS for 44_io.md: INP, OUT, INA and OTA suspend the controller and do nothing else; the host's command completes
the instruction and the block runs on (R160 to R165, R167 to R170). -/

namespace Sys2Proof.Machine

/-! ### The host's half: a command in its own suspension -/

/-- The value read out, `acc` is cleared or kept as the build says, and the controller runs (R168, D5). -/
theorem State.releaseOutput_eq (s : State) :
    s.releaseOutput = { s with acc := if s.cfg.outputClearsAcc then 0 else s.acc, state := .running } := by
  unfold State.releaseOutput
  split
  next => rfl
  next => rfl

theorem input_of_awaitingInput {s : State} (hs : s.state = .awaitingInput) (v : Word) :
    input v s = .ok (s.takeInput v) := if_pos hs

theorem inputChar_of_awaitingCharInput {s : State} (hs : s.state = .awaitingCharInput) (v : Word) :
    inputChar v s = .ok (s.takeInput v) := if_pos hs

theorem output_of_awaitingOutput {s : State} (hs : s.state = .awaitingOutput) :
    output s = .ok (s.acc, s.releaseOutput) := if_pos hs

theorem outputChar_of_awaitingCharOutput {s : State} (hs : s.state = .awaitingCharOutput) :
    outputChar s = .ok (s.acc, s.releaseOutput) := if_pos hs

/-- Settles O41: in its own state each input command answers `State.takeInput`, which writes `acc` and `state` alone. -/
theorem inputCommandsCompleteTheirInstruction : Obligations.InputCommandsCompleteTheirInstruction :=
  ⟨fun v _ hs => input_of_awaitingInput hs v, fun v _ hs => inputChar_of_awaitingCharInput hs v⟩

/-- Settles O42: in its own state each output command answers `acc` and `State.releaseOutput`. -/
theorem outputCommandsReturnTheAccumulator : Obligations.OutputCommandsReturnTheAccumulator := by
  refine ⟨fun s hs => ⟨_, rfl, ?_⟩, fun s hs => ⟨_, rfl, ?_⟩⟩
  · rw [output_of_awaitingOutput hs, State.releaseOutput_eq]
  · rw [outputChar_of_awaitingCharOutput hs, State.releaseOutput_eq]

/-! ### The block's half: the instructions -/

/-- Which words select INP, in every mode (R64). -/
theorem decode_eq_inp_iff (b e : Bool) (w : Word) : decode b e w = .inp ↔ w.val = 901 :=
  decode_eq_iff_val (op := 9) (x := 1) rfl rfl

/-- Which words select OUT, in every mode (R64). -/
theorem decode_eq_out_iff (b e : Bool) (w : Word) : decode b e w = .out ↔ w.val = 902 :=
  decode_eq_iff_val (op := 9) (x := 2) rfl rfl

/-- An instruction that stands in the decode maps of some modes only is selected by its one word in those modes. -/
theorem decode_eq_iff_val_and_wf {b e : Bool} {w : Word} {i : Instr} {op : Fin 10} {x : Addr}
    (henc : encode i = wordOf op x) :
    decode b e w = i ↔ w.val = 100 * op.val + x.val ∧ Instr.wf b e i = true := by
  rw [decode_eq_iff, henc, Fin.ext_iff, Laws.wordOf_val, and_comm, eq_comm]

/-- INA is word 911 of extended mode (R64). -/
theorem decode_eq_ina_iff (b e : Bool) (w : Word) : decode b e w = .ina ↔ w.val = 911 ∧ b = true ∧ e = true :=
  (decode_eq_iff_val_and_wf (op := 9) (x := 11) rfl).trans (and_congr_right' Bool.and_eq_true_iff)

/-- OTA is word 912 of extended mode (R64). -/
theorem decode_eq_ota_iff (b e : Bool) (w : Word) : decode b e w = .ota ↔ w.val = 912 ∧ b = true ∧ e = true :=
  (decode_eq_iff_val_and_wf (op := 9) (x := 12) rfl).trans (and_congr_right' Bool.and_eq_true_iff)

theorem exec_inp (s : State) : exec .inp s = .next (s.enter .awaitingInput) := rfl

theorem exec_out (s : State) : exec .out s = .next (s.enter .awaitingOutput) := rfl

/-- INA enters one controller state and does nothing else; the extended-mode flag says which (R164, log entry 14). -/
theorem exec_ina (s : State) :
    exec .ina s = .next (s.enter (if s.extFlag then .awaitingCharInput else .invalidInstruction)) := by
  rw [apply_ite s.enter]
  rfl

/-- OTA enters one controller state and does nothing else; the extended-mode flag says which (R165, log entry 14). -/
theorem exec_ota (s : State) :
    exec .ota s = .next (s.enter (if s.extFlag then .awaitingCharOutput else .invalidInstruction)) := by
  rw [apply_ite s.enter]
  rfl

/-- Settles O12: INP is word 901 of every mode, and its meaning is to enter AwaitingInput. -/
theorem inpSuspendsForInput : Obligations.InpSuspendsForInput := ⟨decode_eq_inp_iff, exec_inp⟩

/-- Settles O13: OUT is word 902 of every mode, and its meaning is to enter AwaitingOutput. -/
theorem outSuspendsForOutput : Obligations.OutSuspendsForOutput := ⟨decode_eq_out_iff, exec_out⟩

/-- Settles O14: the word by `decode_eq_ina_iff`, the two values of the flag by `exec_ina`. -/
theorem inaSuspendsForCharacterInput : Obligations.InaSuspendsForCharacterInput := by
  refine ⟨decode_eq_ina_iff, fun s hext => ?_, fun s hext => ?_⟩
  · rw [exec_ina, if_pos hext, State.enter]
  · rw [exec_ina, if_neg (Bool.eq_false_iff.mp hext), State.enter]

/-- Settles O15: the word by `decode_eq_ota_iff`, the two values of the flag by `exec_ota`. -/
theorem otaSuspendsForCharacterOutput : Obligations.OtaSuspendsForCharacterOutput := by
  refine ⟨decode_eq_ota_iff, fun s hext => ?_, fun s hext => ?_⟩
  · rw [exec_ota, if_pos hext, State.enter]
  · rw [exec_ota, if_neg (Bool.eq_false_iff.mp hext), State.enter]

/-! ### Both halves, end to end -/

/-- The step that fetches an instruction which only enters a state other than Running moves `pc` past the word and
enters it; there the next step changes nothing (R100, R102, R160). -/
theorem step_suspends {s : State} {a : Addr} {w : Word} {c : CtrlState} (h : RunningAt s a w)
    (hexec : ∀ t, exec (s.decodeWord w) t = .next (t.enter c)) (hc : c ≠ .running) :
    step s = .next ((s.setPc (nextPc a)).enter c) ∧
      step ((s.setPc (nextPc a)).enter c) = .next ((s.setPc (nextPc a)).enter c) :=
  ⟨(step_of_runningAt h).trans (hexec _), stepWhileNotRunningChangesNothing _ hc⟩

theorem State.enter_of_state_eq {s : State} {c : CtrlState} (h : s.state = c) : s.enter c = s := by
  rw [State.enter, ← h]

/-- An input undoes the suspension of a block that was Running: only `acc` is new (R167). -/
theorem State.takeInput_enter {s : State} (hrun : s.state = .running) (c : CtrlState) (v : Word) :
    (s.enter c).takeInput v = s.setAcc v :=
  State.enter_of_state_eq (s := s.setAcc v) hrun

/-- An output undoes the suspension of a block that was Running and whose build keeps `acc` (R168, D5). -/
theorem State.releaseOutput_enter {s : State} (hrun : s.state = .running) (c : CtrlState)
    (hkeep : s.cfg.outputClearsAcc = false) : (s.enter c).releaseOutput = s := by
  rw [State.releaseOutput, State.enter_cfg, if_neg (Bool.eq_false_iff.mp hkeep)]
  exact State.enter_of_state_eq hrun

/-- Settles O44: the INP suspends by `step_suspends`, and the input undoes the suspension. -/
theorem inpThenInputLoadsTheAccumulator : Obligations.InpThenInputLoadsTheAccumulator := by
  intro s a w h hw
  have hinp : s.decodeWord w = .inp := (decode_eq_inp_iff _ _ w).mpr hw
  obtain ⟨hstep, hwait⟩ := step_suspends (c := .awaitingInput) h (fun t => by rw [hinp, exec_inp]) nofun
  refine ⟨_, hstep, hwait, fun v => ?_⟩
  rw [input_of_awaitingInput rfl, State.takeInput_enter (s := s.setPc (nextPc a)) h.1]
  rfl

/-- Settles O45: the OUT suspends by `step_suspends` with `acc` as it was, and the output undoes the suspension where
the build keeps `acc`. -/
theorem outThenOutputReturnsTheAccumulator : Obligations.OutThenOutputReturnsTheAccumulator := by
  intro s a w h hw
  have hout : s.decodeWord w = .out := (decode_eq_out_iff _ _ w).mpr hw
  obtain ⟨hstep, hwait⟩ := step_suspends (c := .awaitingOutput) h (fun t => by rw [hout, exec_out]) nofun
  exact ⟨_, _, hstep, hwait, output_of_awaitingOutput rfl,
    State.releaseOutput_enter (s := s.setPc (nextPc a)) h.1 .awaitingOutput⟩

end Sys2Proof.Machine

/-! PROOFS for 45_system.md: HLT and EXT. HLT enters Halted and does nothing else; EXT sets the extended-mode flag where
its scope allows, and is an ordinary halt elsewhere (R180, R181). -/

namespace Sys2Proof.Machine

/-! ### HLT -/

/-- HLT keeps its ignored digits, and every word 0xx is one but 010 of an extended build (R64). -/
theorem decode_eq_hlt_iff (b e : Bool) (w : Word) (x : Addr) :
    decode b e w = .hlt x ↔ w.val = x.val ∧ ¬(b = true ∧ w.val = 10) := by
  rw [decode_eq_iff_val_and_wf (op := 0) (x := x) rfl, Fin.val_zero, Nat.mul_zero, Nat.zero_add]
  refine and_congr_right fun hw => ?_
  simp only [Instr.wf, hw, Bool.not_eq_true', Bool.and_eq_false_iff, decide_eq_false_iff_not, not_and_or,
    Bool.not_eq_true]

theorem exec_hlt (x : Addr) (s : State) : exec (.hlt x) s = .next (s.enter .halted) := rfl

/-- Settles O16: the words by `decode_eq_hlt_iff`; a fetched one is executed after `pc` has moved past it (D3). -/
theorem hltHaltsAndChangesNothingElse : Obligations.HltHaltsAndChangesNothingElse := by
  refine ⟨decode_eq_hlt_iff, exec_hlt, fun s a w h hle hne => ?_⟩
  have hhlt : s.decodeWord w = .hlt ⟨w.val, by omega⟩ := (decode_eq_hlt_iff _ _ w _).mpr ⟨rfl, hne⟩
  rw [step_of_runningAt h, hhlt]
  exact exec_hlt _ _

/-! ### EXT -/

/-- EXT is word 010 of an extended build (R64). -/
theorem decode_eq_ext_iff (b e : Bool) (w : Word) : decode b e w = .ext ↔ w.val = 10 ∧ b = true :=
  decode_eq_iff_val_and_wf (op := 0) (x := 10) rfl

/-- In an extended build EXT is refused only under `first_only`, with `pc` not one past address 0 (R181, D6). -/
theorem State.extAccepted_iff {s : State} (hbuild : s.cfg.extendedBuild = true) :
    s.extAccepted = true ↔ s.cfg.extScope = .anywhere ∨ s.pc.val = 1 := by
  simp only [State.extAccepted, hbuild, Bool.true_and, Bool.or_eq_true, State.fetchedAtZero, decide_eq_true_eq]

theorem exec_ext_of_accepted {s : State} (h : s.extAccepted = true) : exec .ext s = .next (s.setExt true) := by
  rw [exec, execExt, if_pos h]

/-- Where it takes no effect, EXT is an ordinary halt (R181). -/
theorem exec_ext_of_not_accepted {s : State} (h : ¬ s.extAccepted = true) :
    exec .ext s = .next (s.enter .halted) := by
  rw [exec, execExt, if_neg h]

/-- A scope that holds EXT to address 0 is not the scope that allows it anywhere. -/
theorem not_anywhere_or {scope : ExtScope} {p : Prop} (hscope : scope = .firstOnly) (hp : ¬ p) :
    ¬(scope = .anywhere ∨ p) := by
  rw [hscope]
  exact not_or.mpr ⟨nofun, hp⟩

/-- Settles O17: the word by `decode_eq_ext_iff`; whether EXT is accepted, by `State.extAccepted_iff` in an extended
build and by `State.extAccepted_of_base` in a base build. -/
theorem extEnablesExtendedModeWhereItsScopeAllows : Obligations.ExtEnablesExtendedModeWhereItsScopeAllows := by
  refine ⟨decode_eq_ext_iff, fun s hbuild hscope => ?_, fun s hbuild _ hpc => ?_, fun s hbuild hscope hpc => ?_,
    fun s hbase => ?_⟩
  · exact exec_ext_of_accepted ((State.extAccepted_iff hbuild).mpr (.inl hscope))
  · exact exec_ext_of_accepted ((State.extAccepted_iff hbuild).mpr (.inr hpc))
  · exact exec_ext_of_not_accepted ((State.extAccepted_iff hbuild).not.mpr (not_anywhere_or hscope hpc))
  · exact exec_ext_of_not_accepted (Bool.eq_false_iff.mp (State.extAccepted_of_base hbase))

/-! ### EXT as a step reaches it -/

/-- The step that fetches 010 in an extended build executes EXT, with `pc` moved past it. -/
theorem step_ext {s : State} {a : Addr} {w : Word} (h : RunningAt s a w) (hw : w.val = 10)
    (hbuild : s.cfg.extendedBuild = true) : step s = exec .ext (s.setPc (nextPc a)) := by
  have hext : s.decodeWord w = .ext := (decode_eq_ext_iff _ _ w).mpr ⟨hw, hbuild⟩
  rw [step_of_runningAt h, hext]

/-- The flag that EXT sets reads as true in an extended build (R24). -/
theorem State.extFlag_setExt_true {s : State} (hbuild : s.cfg.extendedBuild = true) :
    (s.setExt true).extFlag = true := by
  rw [State.extFlag, State.setExt_cfg, State.setExt_ext, hbuild, Bool.and_self]

/-- In an extended build whose flag reads as true, 911 and 912 are INA and OTA (R64). -/
theorem State.decodeWord_of_extFlag {s : State} (hext : s.extFlag = true) (v : Word) :
    (v.val = 911 → s.decodeWord v = .ina) ∧ (v.val = 912 → s.decodeWord v = .ota) := by
  have hbuild : s.cfg.extendedBuild = true := (Bool.and_eq_true_iff.mp hext).1
  exact ⟨fun hv => (decode_eq_ina_iff _ _ v).mpr ⟨hv, hbuild, hext⟩,
    fun hv => (decode_eq_ota_iff _ _ v).mpr ⟨hv, hbuild, hext⟩⟩

/-- Settles O18: after the fetch the scope is judged by the address of the word, `State.extAccepted_setPc_nextPc`; an
accepted EXT leaves the flag true, and then the decoder gives INA and OTA. -/
theorem extTakesEffectByItsAddress : Obligations.ExtTakesEffectByItsAddress := by
  intro s a w h hw hbuild
  have hscope := State.extAccepted_setPc_nextPc a hbuild
  rw [step_ext h hw hbuild]
  constructor
  · intro hallowed
    have hflag := State.extFlag_setExt_true (s := s.setPc (nextPc a)) hbuild
    exact ⟨_, exec_ext_of_accepted (hscope.mpr hallowed), rfl, State.decodeWord_of_extFlag hflag⟩
  · intro hfirst ha
    exact exec_ext_of_not_accepted (hscope.not.mpr (not_anywhere_or hfirst ha))

end Sys2Proof.Machine

/-! PROOFS for 46_binary_codec.md: the buffer read as one bit stream, on which packer and unpacker agree (R192 to
R194, R198); trimming and the round trips (R195, R200); the unpacker's errors (R197, R198); the source's packing
loop (R193). -/

namespace Sys2Proof.Machine

/-! ### The buffer as one bit stream -/

/-- Bit `s` of a buffer read as one stream, the most significant bit of each byte first (R192). -/
def streamBit (P : List Byte) (s : Nat) : Bool := (P.getD (s / 8) 0).getLsbD (7 - s % 8)

theorem streamBit_append_left {P Q : List Byte} {s : Nat} (h : s < 8 * P.length) :
    streamBit (P ++ Q) s = streamBit P s := by
  rw [streamBit, streamBit, List.getD_append _ _ _ _ (by omega)]

theorem streamBit_append_right (P Q : List Byte) (s : Nat) :
    streamBit (P ++ Q) (8 * P.length + s) = streamBit Q s := by
  rw [streamBit, streamBit, List.getD_append_right _ _ _ _ (by omega)]
  congr 2 <;> omega

theorem streamBit_of_length_le {P : List Byte} {s : Nat} (h : 8 * P.length ≤ s) : streamBit P s = false := by
  rw [streamBit, List.getD_eq_default _ _ (by omega)]
  exact BitVec.getLsbD_zero

theorem streamBit_eq_testBit_byteAt (P : List Byte) (s : Nat) :
    streamBit P s = (byteAt P (s / 8)).testBit (7 - s % 8) :=
  (BitVec.testBit_toNat _).symm

/-- The stream determines every byte as the unpacker reads it. -/
theorem byteAt_eq_of_streamBit_eq {P Q : List Byte} (h : ∀ s, streamBit P s = streamBit Q s) (i : Nat) :
    byteAt P i = byteAt Q i := by
  refine congrArg BitVec.toNat (BitVec.eq_of_getLsbD_eq fun b hb => ?_)
  have hbit := h (8 * i + (7 - b))
  rwa [streamBit, streamBit, show (8 * i + (7 - b)) / 8 = i by omega,
    show 7 - (8 * i + (7 - b)) % 8 = b by omega] at hbit

/-! ### The packer writes the stream -/

theorem getLsbD_fieldOf (w : Word) (t : Fin 10) : (fieldOf w).getLsbD (9 - t.val) = w.val.testBit (9 - t.val) := by
  rw [fieldOf, BitVec.getLsbD_ofNat, decide_eq_true (by omega), Bool.true_and]

theorem length_packGroup (f0 f1 f2 f3 : Field) : (packGroup f0 f1 f2 f3).length = 5 := rfl

/-- The table of R194 read bit by bit: five bytes carry four fields in order, ten bits each. -/
theorem streamBit_packGroup (w0 w1 w2 w3 : Word) (j : Fin 4) (t : Fin 10) :
    streamBit (packGroup (fieldOf w0) (fieldOf w1) (fieldOf w2) (fieldOf w3)) (10 * j.val + t.val) =
      (fieldOf [w0, w1, w2, w3][j]).getLsbD (9 - t.val) := by
  fin_cases j <;> fin_cases t <;>
    simp [streamBit, packGroup, BitVec.getLsbD_append (n := 2) (m := 6), BitVec.getLsbD_append (n := 4) (m := 4),
      BitVec.getLsbD_append (n := 6) (m := 2), BitVec.getLsbD_extractLsb', -BitVec.getLsbD_eq_getElem]

/-- Field `k` of whole groups of words is stream bits `10k .. 10k+9`, by induction on the groups (R192). -/
theorem streamBit_packFields {n : Nat} {ws : List Word} (hn : ws.length = 4 * n) {k : Nat} (hk : k < ws.length)
    (t : Fin 10) : streamBit (packFields ws) (10 * k + t.val) = (fieldOf ws[k]).getLsbD (9 - t.val) := by
  induction n generalizing ws k with
  | zero => omega
  | succ n ih =>
    match ws, hn with
    | w0 :: w1 :: w2 :: w3 :: ws, hn =>
      rw [packFields]
      rcases Nat.lt_or_ge k 4 with h | h
      · rw [streamBit_append_left (by rw [length_packGroup]; omega), streamBit_packGroup w0 w1 w2 w3 ⟨k, h⟩]
        congr 2
        exact (List.getElem_append_left (as := [w0, w1, w2, w3]) h).symm
      · obtain ⟨k, rfl⟩ := Nat.exists_eq_add_of_le' h
        have hs : 10 * (k + 4) + t.val = 8 * 5 + (10 * k + t.val) := by omega
        rw [hs, ← length_packGroup (fieldOf w0) (fieldOf w1) (fieldOf w2) (fieldOf w3), streamBit_append_right,
          ih (by simpa [Nat.mul_succ] using hn) (by simpa using hk)]
        rfl

theorem length_packFields_image (img : Image) : (packFields img.toList).length = codecMaxBytes :=
  length_packFields 25 _ img.length_toList

theorem streamBit_packFields_image (img : Image) (k : Addr) (t : Fin 10) :
    streamBit (packFields img.toList) (10 * k.val + t.val) = (fieldOf (img.get k)).getLsbD (9 - t.val) :=
  streamBit_packFields (n := 25) img.length_toList (k.isLt.trans_eq img.length_toList.symm) t

/-- Settles O55: the length of the untrimmed bytes and their stream, `streamBit_packFields_image`. -/
theorem packedBytesAreTheMsbFirstStream : Obligations.PackedBytesAreTheMsbFirstStream :=
  fun img k t => ⟨length_packFields_image img, streamBit_packFields_image img k t⟩

/-! ### The unpacker reads the stream -/

/-- Bit by bit, a field is the low end of one byte and the high end of the next (R198), which is ten bits of the
stream (R192). -/
theorem testBit_unpackField (P : List Byte) (k : Nat) (t : Fin 10) :
    (unpackField P k).testBit (9 - t.val) = streamBit P (10 * k + t.val) := by
  have hbytes : (unpackField P k).testBit (9 - t.val) =
      ((decide (9 - t.val ≥ 2 + 2 * (k % 4)) &&
          (byteAt P (5 * (k / 4) + k % 4)).testBit (9 - t.val - (2 + 2 * (k % 4)))) ||
        (byteAt P (5 * (k / 4) + k % 4 + 1)).testBit (6 - 2 * (k % 4) + (9 - t.val))) := by
    rw [unpackField, Nat.and_two_pow_sub_one_eq_mod _ 10, Nat.testBit_mod_two_pow, decide_eq_true (by omega),
      Bool.true_and, Nat.testBit_or, Nat.testBit_shiftLeft, Nat.testBit_shiftRight]
  rw [hbytes, streamBit_eq_testBit_byteAt]
  rcases Nat.lt_or_ge (2 * (k % 4) + t.val) 8 with h | h
  · have hnext : (byteAt P (5 * (k / 4) + k % 4 + 1)).testBit (6 - 2 * (k % 4) + (9 - t.val)) = false := by
      rw [byteAt, BitVec.testBit_toNat, BitVec.getLsbD_of_ge _ _ (by omega)]
    rw [hnext, Bool.or_false, decide_eq_true (by omega), Bool.true_and,
      show (10 * k + t.val) / 8 = 5 * (k / 4) + k % 4 by omega,
      show 7 - (10 * k + t.val) % 8 = 9 - t.val - (2 + 2 * (k % 4)) by omega]
  · rw [decide_eq_false (by omega), Bool.false_and, Bool.false_or,
      show (10 * k + t.val) / 8 = 5 * (k / 4) + k % 4 + 1 by omega,
      show 7 - (10 * k + t.val) % 8 = 6 - 2 * (k % 4) + (9 - t.val) by omega]

theorem unpackField_lt (P : List Byte) (k : Nat) : unpackField P k < 2 ^ 10 :=
  Nat.lt_succ_of_le Nat.and_le_right

/-- Two ten-bit numbers with the same bits, most significant first, are the same. -/
theorem eq_of_testBit_msbFirst_eq {x y : Nat} (hx : x < 2 ^ 10) (hy : y < 2 ^ 10)
    (h : ∀ t : Fin 10, x.testBit (9 - t.val) = y.testBit (9 - t.val)) : x = y := by
  refine Nat.eq_of_testBit_eq fun b => ?_
  rcases Nat.lt_or_ge b 10 with hb | hb
  · have hbit := h ⟨9 - b, by omega⟩
    rwa [show 9 - (9 - b) = b by omega] at hbit
  · have hpow : 2 ^ 10 ≤ 2 ^ b := Nat.pow_le_pow_right two_pos hb
    rw [Nat.testBit_lt_two_pow (hx.trans_le hpow), Nat.testBit_lt_two_pow (hy.trans_le hpow)]

/-- The unpacker reads back every word of the packed image. -/
theorem unpackField_packFields_image (img : Image) (k : Addr) :
    unpackField (packFields img.toList) k.val = (img.get k).val :=
  eq_of_testBit_msbFirst_eq (unpackField_lt _ _) (by omega) fun t => by
    rw [testBit_unpackField, streamBit_packFields_image, getLsbD_fieldOf]

/-! ### Trimming -/

/-- A trimmed buffer does not end in a zero byte. -/
theorem getLast?_trimZeros_ne (P : List Byte) : (trimZeros P).getLast? ≠ some 0 := by
  induction P with
  | nil => exact nofun
  | cons b P ih =>
    rw [trimZeros]
    split
    next =>
      split_ifs with hb
      · exact nofun
      · exact fun h => hb (Option.some.inj h)
    next c cs hc => rwa [List.getLast?_cons_cons, ← hc]

theorem length_trimZeros_le (P : List Byte) : (trimZeros P).length ≤ P.length := by
  obtain ⟨z, hz⟩ := trimZeros_append P
  rw [congrArg List.length hz, List.length_append]
  exact Nat.le_add_right _ _

theorem unpackField_trimZeros (P : List Byte) (k : Nat) : unpackField (trimZeros P) k = unpackField P k := by
  simp only [unpackField, byteAt_trimZeros]

theorem streamBit_trimZeros (P : List Byte) (s : Nat) : streamBit (trimZeros P) s = streamBit P s := by
  rw [streamBit_eq_testBit_byteAt, byteAt_trimZeros, ← streamBit_eq_testBit_byteAt]

/-- A buffer that does not end in a zero byte is no longer than a buffer that reads the same: its last byte would be
read as zero past the other's end. -/
theorem length_le_of_byteAt_eq {P Q : List Byte} (hP : P.getLast? ≠ some 0) (h : ∀ i, byteAt P i = byteAt Q i) :
    P.length ≤ Q.length := by
  by_contra hlt
  have hlast : P.getD (P.length - 1) 0 = 0 := by
    rw [BitVec.eq_of_toNat_eq (h (P.length - 1)), List.getD_eq_default _ _ (by omega)]
  rw [List.getD_eq_getElem _ _ (by omega)] at hlast
  exact hP (by rw [List.getLast?_eq_getElem?, List.getElem?_eq_getElem (by omega), hlast])

/-- Among the buffers that read the same, at most one does not end in a zero byte. -/
theorem eq_of_byteAt_eq {P Q : List Byte} (hP : P.getLast? ≠ some 0) (hQ : Q.getLast? ≠ some 0)
    (h : ∀ i, byteAt P i = byteAt Q i) : P = Q := by
  refine List.ext_getElem
    (Nat.le_antisymm (length_le_of_byteAt_eq hP h) (length_le_of_byteAt_eq hQ fun i => (h i).symm))
    fun i hi hi' => ?_
  rw [← List.getD_eq_getElem P 0 hi, ← List.getD_eq_getElem Q 0 hi']
  exact BitVec.eq_of_toNat_eq (h i)

theorem length_pack_le (img : Image) : (pack img).length ≤ codecMaxBytes :=
  (length_trimZeros_le _).trans_eq (length_packFields_image img)

/-- Settles O57: trimming takes zero bytes alone, `trimZeros_append`, and all of them, `getLast?_trimZeros_ne`. -/
theorem packTrimsExactlyTheTrailingZeroBytes : Obligations.PackTrimsExactlyTheTrailingZeroBytes := by
  intro img
  obtain ⟨z, hz⟩ := trimZeros_append (packFields img.toList)
  exact ⟨length_packFields_image img, z, hz, getLast?_trimZeros_ne _, length_pack_le img⟩

/-! ### The round trips -/

theorem unpack_pack (img : Image) : unpack (pack img) = .ok img :=
  unpack_eq_ok_iff.mpr ⟨length_pack_le img, fun k => by
    rw [pack, unpackField_trimZeros, unpackField_packFields_image]⟩

/-- A buffer that unpacks and the packed form of its image carry the same stream: the fields are the image's words,
and past bit 999 both read zeros. -/
theorem streamBit_pack_of_unpack {P : List Byte} {img : Image} (h : unpack P = .ok img) (s : Nat) :
    streamBit (pack img) s = streamBit P s := by
  obtain ⟨hlen, hfield⟩ := unpack_eq_ok_iff.mp h
  rw [pack, streamBit_trimZeros]
  rcases Nat.lt_or_ge s 1000 with hs | hs
  · have hbit : ∀ (k : Addr) (t : Fin 10),
        streamBit (packFields img.toList) (10 * k.val + t.val) = streamBit P (10 * k.val + t.val) := fun k t => by
      rw [streamBit_packFields_image, getLsbD_fieldOf, hfield, testBit_unpackField]
    have hs' := hbit ⟨s / 10, by omega⟩ ⟨s % 10, by omega⟩
    rwa [Nat.div_add_mod] at hs'
  · have hmax : 8 * codecMaxBytes ≤ s := hs
    rw [streamBit_of_length_le ((length_packFields_image img).symm ▸ hmax),
      streamBit_of_length_le ((Nat.mul_le_mul_left 8 hlen).trans hmax)]

/-- Settles O54: both buffers read the same, and the packed form does not end in a zero byte, so they are equal
exactly when the other does not either (D15). -/
theorem packOfUnpackIsTheBufferWithoutTrailingZeros : Obligations.PackOfUnpackIsTheBufferWithoutTrailingZeros := by
  intro P img h
  have hpack : (pack img).getLast? ≠ some 0 := getLast?_trimZeros_ne _
  exact ⟨fun heq => heq ▸ hpack,
    fun hP => eq_of_byteAt_eq hpack hP (byteAt_eq_of_streamBit_eq (streamBit_pack_of_unpack h))⟩

/-- The empty buffer is all zero fields (R198, R199). -/
theorem unpack_nil : unpack [] = .ok (Vector.replicate 100 0) :=
  unpack_eq_ok_iff.mpr ⟨Nat.zero_le _, fun k => by simp [unpackField, byteAt, Vector.get]⟩

/-- An odd last word keeps all 125 bytes: it sets the last bit of the stream. -/
theorem length_pack_of_odd {img : Image} (h : (img.get 99).val.testBit 0 = true) :
    (pack img).length = codecMaxBytes := by
  refine Nat.le_antisymm (length_pack_le img) (Nat.le_of_not_lt fun hlt => ?_)
  have hset : streamBit (pack img) 999 = true := by
    rw [pack, streamBit_trimZeros, ← h]
    exact (streamBit_packFields_image img 99 9).trans (getLsbD_fieldOf _ 9)
  have hclear : streamBit (pack img) 999 = false :=
    streamBit_of_length_le (by rw [codecMaxBytes] at hlt; omega)
  exact Bool.false_ne_true (hclear.symm.trans hset)

/-- Settles O53: `unpack_pack`; the zero image is what the empty buffer unpacks to, so it packs to that buffer; in
the image of ones the last word is odd. -/
theorem unpackOfPackIsTheImage : Obligations.UnpackOfPackIsTheImage :=
  ⟨unpack_pack, (packOfUnpackIsTheBufferWithoutTrailingZeros [] _ unpack_nil).mpr nofun, length_pack_of_odd rfl⟩

/-! ### The unpacker's errors -/

theorem unpack_of_gt {P : List Byte} (h : codecMaxBytes < P.length) :
    unpack P = .error (.bufferTooLarge P.length) := if_pos h

/-- The unpacker reports the least field over 999 (R198, D14). -/
theorem unpack_eq_invalidNumber_iff {P : List Byte} (hlen : P.length ≤ codecMaxBytes) {k f : Nat} :
    unpack P = .error (.invalidNumber k f) ↔
      k < 100 ∧ f = unpackField P k ∧ 999 < f ∧ ∀ j, j < k → unpackField P j ≤ 999 := by
  have hleast : ∀ i, ((List.range 100).find? fun k => decide (999 < unpackField P k)) = some i ↔
      999 < unpackField P i ∧ i < 100 ∧ ∀ j < i, unpackField P j ≤ 999 := fun i => by
    simp [List.find?_range_eq_some]
  rw [unpack, if_neg (Nat.not_lt.mpr hlen)]
  split
  next i hi =>
    obtain ⟨hbig, hlt, hmin⟩ := (hleast i).mp hi
    constructor
    · intro h
      obtain ⟨rfl, rfl⟩ := CodecError.invalidNumber.inj (Except.error.inj h)
      exact ⟨hlt, rfl, hbig, hmin⟩
    · rintro ⟨hk, rfl, hf, hkmin⟩
      have hik : i = k := Option.some.inj (hi.symm.trans ((hleast k).mpr ⟨hf, hk, hkmin⟩))
      rw [hik]
  next hnone =>
    refine iff_of_false nofun ?_
    rintro ⟨hk, rfl, hf, hkmin⟩
    exact absurd (hnone.symm.trans ((hleast k).mpr ⟨hf, hk, hkmin⟩)) nofun

theorem unpack_of_fields_le {P : List Byte} (hlen : P.length ≤ codecMaxBytes)
    (h : ∀ k, k < 100 → unpackField P k ≤ 999) :
    ∃ img, unpack P = .ok img ∧ ∀ k : Addr, (img.get k).val = unpackField P k.val := by
  have hfits : ∀ k : Addr, ∃ w : Word, w.val = unpackField P k.val :=
    fun k => ⟨⟨_, Nat.lt_succ_of_le (h k.val k.isLt)⟩, rfl⟩
  choose word hword using hfits
  have himg : ∀ k : Addr, ((Vector.ofFn word).get k).val = unpackField P k.val :=
    fun k => by rw [Vector.get_ofFn, hword]
  exact ⟨_, unpack_eq_ok_iff.mpr ⟨hlen, himg⟩, himg⟩

/-- Settles O58: the length is checked first, `unpack_of_gt`; then the least field over 999 is the error, and with
no such field the fields are the image. -/
theorem unpackRejectsWithTheseErrorsExactly : Obligations.UnpackRejectsWithTheseErrorsExactly :=
  fun _ => ⟨unpack_of_gt, fun hlen _ _ => unpack_eq_invalidNumber_iff hlen, unpack_of_fields_le⟩

/-! ### The source's packing loop -/

theorem orByte_append (B C : List Byte) (i v : Nat) : orByte (B ++ C) (B.length + i) v = B ++ orByte C i v := by
  induction B with
  | nil => rw [List.length_nil, Nat.zero_add, List.nil_append, List.nil_append]
  | cons b B ih =>
    rw [List.length_cons, Nat.add_right_comm, List.cons_append, List.cons_append, ← ih]
    exact List.modify_succ_cons _ _ _ _

/-- The loop leaves the bytes before its index alone. -/
theorem packLoop_append (ws : List Word) (B C : List Byte) (i off : Nat) :
    packLoop ws (B.length + i) off (B ++ C) = B ++ packLoop ws i off C := by
  induction ws generalizing i off C with
  | nil => rfl
  | cons w ws ih => simp only [packLoop, Nat.add_assoc, orByte_append, ih, ← apply_ite (B ++ ·)]

/-- The high part of a word that the loop ORs into its byte. -/
theorem ofNat_shiftRight_eq (w : Word) (off : Nat) :
    BitVec.ofNat 8 ((w.val >>> off) &&& 0xFF) = (fieldOf w).extractLsb' off 8 := by
  refine BitVec.eq_of_getLsbD_eq fun i hi => ?_
  rw [Nat.and_two_pow_sub_one_eq_mod _ 8, BitVec.getLsbD_ofNat, Nat.testBit_mod_two_pow, Nat.testBit_shiftRight,
    BitVec.getLsbD_extractLsb', fieldOf, BitVec.getLsbD_ofNat]
  rcases Nat.lt_or_ge (off + i) 10 with h | h
  · simp [hi, h]
  · have hpow : 2 ^ 10 ≤ 2 ^ (off + i) := Nat.pow_le_pow_right two_pos h
    rw [Nat.testBit_lt_two_pow (by omega)]
    simp

/-- The low part of a word that the loop ORs into the next byte. -/
theorem ofNat_shiftLeft_eq (w : Word) (n : Nat) :
    BitVec.ofNat 8 ((w.val <<< n) &&& 0xFF) = (fieldOf w).extractLsb' 0 8 <<< n := by
  refine BitVec.eq_of_getLsbD_eq fun i hi => ?_
  rw [Nat.and_two_pow_sub_one_eq_mod _ 8, BitVec.getLsbD_ofNat, Nat.testBit_mod_two_pow, Nat.testBit_shiftLeft,
    BitVec.getLsbD_shiftLeft, BitVec.getLsbD_extractLsb', fieldOf, BitVec.getLsbD_ofNat]
  rcases Nat.lt_or_ge i n with h | h
  · simp [h, Nat.not_le.mpr h]
  · simp [hi, h, Nat.not_lt.mpr h, show i - n < 8 by omega, show i - n < 10 by omega]

/-- A byte that two fields share: the low `a` bits of the one above the high `b` bits of the next. -/
theorem shiftLeft_or_extractLsb'_eq (f g : Field) {a b : Nat} (h : a + b = 8) :
    f.extractLsb' 0 8 <<< b ||| g.extractLsb' (a + 2) 8 =
      (f.extractLsb' 0 a ++ g.extractLsb' (a + 2) b).cast h := by
  refine BitVec.eq_of_getLsbD_eq fun i hi => ?_
  rw [BitVec.getLsbD_or, BitVec.getLsbD_shiftLeft, BitVec.getLsbD_cast, BitVec.getLsbD_append]
  simp only [BitVec.getLsbD_extractLsb']
  rcases Nat.lt_or_ge i b with hib | hib
  · simp [hi, hib]
  · have hpast : g.getLsbD (a + 2 + i) = false := BitVec.getLsbD_of_ge _ _ (by omega)
    simp [hi, hpast, Nat.not_lt.mpr hib, show i - b < 8 by omega, show i - b < a by omega]

/-- The group of R194 as the loop builds it, whole words shifted and joined with OR (R193). -/
theorem packGroup_eq_shifts (f0 f1 f2 f3 : Field) : packGroup f0 f1 f2 f3 =
    [ f0.extractLsb' 2 8,
      f0.extractLsb' 0 8 <<< 6 ||| f1.extractLsb' 4 8,
      f1.extractLsb' 0 8 <<< 4 ||| f2.extractLsb' 6 8,
      f2.extractLsb' 0 8 <<< 2 ||| f3.extractLsb' 8 8,
      f3.extractLsb' 0 8 <<< 0 ] := by
  rw [shiftLeft_or_extractLsb'_eq f0 f1 (a := 2) (b := 6) rfl, shiftLeft_or_extractLsb'_eq f1 f2 (a := 4) (b := 4) rfl,
    shiftLeft_or_extractLsb'_eq f2 f3 (a := 6) (b := 2) rfl, BitVec.shiftLeft_zero]
  rfl

/-- Four turns of the loop, at offsets 2, 4, 6 and 8, fill five zero bytes with one group (R193 against R194). -/
theorem packLoop_group (w0 w1 w2 w3 : Word) (ws : List Word) (B : List Byte) :
    packLoop (w0 :: w1 :: w2 :: w3 :: ws) 0 2 (List.replicate 5 0 ++ B) =
      packGroup (fieldOf w0) (fieldOf w1) (fieldOf w2) (fieldOf w3) ++ packLoop ws 0 2 B := by
  rw [← packLoop_append, length_packGroup]
  simp only [packLoop, orByte, ofNat_shiftRight_eq, ofNat_shiftLeft_eq, packGroup_eq_shifts]
  simp [List.replicate_succ]

/-- The loop over whole groups of words, started on zero bytes, writes the closed form and no byte past it. -/
theorem packLoop_zeros {n : Nat} {ws : List Word} (hn : ws.length = 4 * n) (B : List Byte) :
    packLoop ws 0 2 (List.replicate (5 * n) 0 ++ B) = packFields ws ++ B := by
  induction n generalizing ws with
  | zero => rw [List.length_eq_zero_iff.mp hn]; rfl
  | succ n ih =>
    match ws, hn with
    | w0 :: w1 :: w2 :: w3 :: ws, hn =>
      rw [packFields, Nat.mul_succ, Nat.add_comm, List.replicate_add, List.append_assoc, List.append_assoc,
        packLoop_group, ih (by simpa [Nat.mul_succ] using hn)]

/-- Settles O56: the loop fills 125 of its 126 zero bytes with the closed form, `packLoop_zeros`; the spare byte is cut
off before trimming. -/
theorem theSourcesPackingLoopGivesTheSameBytes : Obligations.TheSourcesPackingLoopGivesTheSameBytes := by
  intro img
  have hloop : packLoop img.toList 0 2 (List.replicate (codecMaxBytes + 1) 0) = packFields img.toList ++ [0] :=
    packLoop_zeros (n := 25) img.length_toList [0]
  rw [packBySource, hloop, List.take_left' (length_packFields_image img), pack]

end Sys2Proof.Machine

/-! PROOFS for 48_host_interface.md: the I/O commands in the wrong state, load and dump, load_bytes, and run; the harness
within its cycle budget (R222 to R225, R227, R230, R232). -/

namespace Sys2Proof.Machine

/-! ### An I/O command outside its own suspension -/

theorem input_of_ne {s : State} (hs : s.state ≠ .awaitingInput) (v : Word) : input v s = .error .unexpectedInput :=
  if_neg hs

theorem inputChar_of_ne {s : State} (hs : s.state ≠ .awaitingCharInput) (v : Word) :
    inputChar v s = .error .unexpectedInput := if_neg hs

theorem output_of_ne {s : State} (hs : s.state ≠ .awaitingOutput) : output s = .error .unexpectedOutput := if_neg hs

theorem outputChar_of_ne {s : State} (hs : s.state ≠ .awaitingCharOutput) :
    outputChar s = .error .unexpectedOutput := if_neg hs

theorem after_of_perform_error {c : Command} {s : State} {e : CommandError} (h : perform c s = .error e) :
    after c s = s := by
  rw [after, h]

/-- Settles O43: each I/O command tests the controller state first, and `after` keeps the state of a failed one. -/
theorem anIoCommandInTheWrongStateFails : Obligations.AnIoCommandInTheWrongStateFails := by
  refine ⟨fun v s hs => ?_, fun v s hs => ?_, fun s hs => ?_, fun s hs => ?_, fun c s e => after_of_perform_error⟩
  · rw [perform, input_of_ne hs, Except.map]
  · rw [perform, inputChar_of_ne hs, Except.map]
  · rw [perform, output_of_ne hs, Except.map]
  · rw [perform, outputChar_of_ne hs, Except.map]

/-! ### Load and dump -/

/-- A loaded memory lists the image's words that are not the unlisted word, each at its address. -/
theorem Memory.mem_ofImage (img : Image) (c : Nat × Word) :
    c ∈ Memory.ofImage img ↔ ∃ a : Addr, a.val = c.1 ∧ img.get a = c.2 ∧ c.2 ≠ Memory.unlisted := by
  simp only [Memory.ofImage, List.mem_filterMap, List.mem_finRange, true_and]
  refine exists_congr fun a => ?_
  split
  next h => exact iff_of_false nofun fun ⟨_, heq, hne⟩ => hne (heq ▸ h)
  next h =>
    rw [Option.some.injEq, Prod.ext_iff]
    exact and_congr_right fun _ => (and_iff_left_of_imp fun heq => heq ▸ h).symm

theorem Memory.read_ofImage (img : Image) (a : Addr) : (Memory.ofImage img).read a = img.get a := by
  by_cases ha : img.get a = Memory.unlisted
  · rw [ha]
    refine Memory.lookup_of_not_mem _ fun c hc hca => ?_
    obtain ⟨b, hb, heq, hne⟩ := (Memory.mem_ofImage img c).mp hc
    obtain rfl : b = a := Fin.ext (hb.trans hca)
    exact hne (heq.symm.trans ha)
  · have hrising := ((Memory.wf_iff _).mp (Memory.wf_ofImage img)).1
    exact Memory.lookup_of_mem hrising ((Memory.mem_ofImage img (a.val, img.get a)).mpr ⟨a, rfl, rfl, ha⟩)

theorem Memory.toImage_ofImage (img : Image) : (Memory.ofImage img).toImage = img := by
  refine Vector.ext fun i hi => ?_
  rw [Memory.toImage, Vector.getElem_ofFn, Memory.read_ofImage]
  rfl

/-- Settles O47: the command is `load`, every field of it but memory by definition; memory by
`Memory.read_ofImage`. -/
theorem loadPutsTheImageInMemory : Obligations.LoadPutsTheImageInMemory := by
  intro img s
  have hdump : dump (load img s) = img := Memory.toImage_ofImage img
  exact ⟨load img s, rfl, rfl, Memory.read_ofImage img, Memory.wf_ofImage img, by rw [perform, hdump]⟩

theorem perform_loadBytes_of_unpack_error {P : List Byte} {e : CodecError} (h : unpack P = .error e) (s : State) :
    perform (.loadBytes P) s = .error (.codec e) := by
  rw [perform, loadBytes, h]
  rfl

/-- Settles O48: a packed image unpacks to the image, `unpack_pack`; a rejected buffer makes the command fail. -/
theorem loadBytesLoadsAPackedImageOrChangesNothing : Obligations.LoadBytesLoadsAPackedImageOrChangesNothing := by
  refine ⟨fun img s => ?_, fun P e s h => ?_⟩
  · rw [after_loadBytes, unpack_pack]
    rfl
  · have hperform := perform_loadBytes_of_unpack_error h s
    exact ⟨hperform, after_of_perform_error hperform⟩

/-! ### A run -/

theorem runWithin_of_not_running {s : State} (hs : s.state ≠ .running) (n : Nat) : runWithin n s = some s := by
  cases n with
  | zero => rw [runWithin, if_neg hs]
  | succ n => rw [runWithin, if_neg hs]

theorem runWithin_zero_of_running {s : State} (hs : s.state = .running) : runWithin 0 s = none := if_pos hs

theorem runWithin_succ_of_step {s t : State} (hs : s.state = .running) (h : step s = .next t) (n : Nat) :
    runWithin (n + 1) s = runWithin n t := by
  rw [runWithin, if_pos hs, h]

theorem runs_iff_of_not_running {s : State} (hs : s.state ≠ .running) (t : State) : Runs s t ↔ t = s := by
  simp [Runs, runWithin_of_not_running hs, eq_comm]

theorem runs_iff_of_step {s t : State} (hs : s.state = .running) (h : step s = .next t) (u : State) :
    Runs s u ↔ Runs t u := by
  constructor
  · rintro ⟨n, hn⟩
    cases n with
    | zero => rw [runWithin_zero_of_running hs] at hn; exact absurd hn nofun
    | succ n => exact ⟨n, by rwa [runWithin_succ_of_step hs h] at hn⟩
  · rintro ⟨n, hn⟩
    exact ⟨n + 1, by rwa [runWithin_succ_of_step hs h]⟩

/-- What holds of every block that a run returns at once, and goes back from the next state to a Running one, holds of
every run that returns: the one induction over the length of a run (R222). -/
theorem Runs.induct {motive : State → State → Prop} (stop : ∀ s, s.state ≠ .running → motive s s)
    (next : ∀ s t u, s.state = .running → step s = .next t → motive t u → motive s u) {s t : State}
    (h : Runs s t) : motive s t := by
  obtain ⟨n, hn⟩ := h
  induction n generalizing s with
  | zero =>
    by_cases hs : s.state = .running
    · rw [runWithin_zero_of_running hs] at hn
      exact absurd hn nofun
    · exact (runs_iff_of_not_running hs t).mp ⟨0, hn⟩ ▸ stop s hs
  | succ n ih =>
    by_cases hs : s.state = .running
    · obtain ⟨s', hstep⟩ := step_total s
      rw [runWithin_succ_of_step hs hstep] at hn
      exact next s s' t hs hstep (ih hn)
    · exact (runs_iff_of_not_running hs t).mp ⟨n + 1, hn⟩ ▸ stop s hs

theorem Runs.not_running {s t : State} (h : Runs s t) : t.state ≠ .running :=
  Runs.induct (motive := fun _ t => t.state ≠ .running) (fun _ hs => hs) (fun _ _ _ _ _ ih => ih) h

theorem run_succ_of_step {M : Host.Core} {s t : M.State} (h : M.step s = .next t) (n : Nat) :
    M.run (n + 1) s = M.run n t := by
  rw [Host.Core.run, h]

theorem Runs.exists_run {s t : State} (h : Runs s t) : ∃ n, Host.Core.run Sys2Proof.core n s = .next t := by
  refine Runs.induct (motive := fun s t => ∃ n, Host.Core.run Sys2Proof.core n s = .next t) (fun _ _ => ⟨0, rfl⟩) ?_ h
  rintro s t u - hstep ⟨n, hn⟩
  exact ⟨n + 1, (run_succ_of_step (M := Sys2Proof.core) hstep n).trans hn⟩

theorem Runs.unique {s t u : State} (ht : Runs s t) (hu : Runs s u) : t = u :=
  Runs.induct (motive := fun s t => Runs s u → t = u) (fun _ hs hu => ((runs_iff_of_not_running hs u).mp hu).symm)
    (fun _ _ _ hs hstep ih hu => ih ((runs_iff_of_step hs hstep u).mp hu)) ht hu

/-- Settles O50: the two equations of a run, and the two inductions over a run that returns. -/
theorem runStepsUntilTheBlockLeavesRunning : Obligations.RunStepsUntilTheBlockLeavesRunning :=
  ⟨fun _ _ h => ⟨h.not_running, h.exists_run⟩, fun _ _ _ => Runs.unique, fun _ => runs_iff_of_not_running,
    fun _ _ u hs hstep => runs_iff_of_step hs hstep u⟩

/-! ### The harness -/

/-- An error other than the one that reports the budget as spent (R231). -/
def HarnessError.notBudget : HarnessError → Bool
  | .runOutOfCycles .. => false
  | .runOutOfInputs .. | .runOutOfOutputs .. | .differentOutput .. | .differentCharOutput .. | .invalidInstruction ..
  | .expectedMoreInputs .. | .expectedMoreOutputs .. | .noNumeral .. | .command .. => true

/-- What one turn of the harness answers, as far as the budget goes: the end, the same test to go on with, or an error
that does not report the budget. -/
def TurnWithinBudget (t : TestCase) : Except HarnessError (Option (TestCase × State)) → Prop
  | .ok none => True
  | .ok (some (t', _)) => t'.name = t.name
  | .error e => e.notBudget = true

/-- No state of the block makes the harness report its budget, and a queue consumed is all that changes in a test. -/
theorem answer_withinBudget (codec : CharCodec) (t : TestCase) (cycles : Nat) (s : State) :
    TurnWithinBudget t (answer codec t cycles s) := by
  unfold answer
  split
  next => rfl
  next hs =>
    split
    next => rfl
    next => rw [input_of_awaitingInput hs]; rfl
  next hs =>
    split
    next => rfl
    next =>
      split
      next => rfl
      next => rw [inputChar_of_awaitingCharInput hs]; rfl
  next hs =>
    split
    next => rfl
    next =>
      rw [output_of_awaitingOutput hs]
      dsimp only
      split <;> rfl
  next hs =>
    split
    next => rfl
    next =>
      rw [outputChar_of_awaitingCharOutput hs]
      dsimp only
      split <;> rfl
  next => trivial
  next => trivial
  next => rfl

theorem checkConsumed_cases (t : TestCase) (cycles : Nat) :
    checkConsumed t cycles = .ok cycles ∨ ∃ e, checkConsumed t cycles = .error e ∧ e.notBudget = true := by
  unfold checkConsumed
  split_ifs
  · exact .inr ⟨_, rfl, rfl⟩
  · exact .inr ⟨_, rfl, rfl⟩
  · exact .inl rfl

/-- One turn of the loop of R230: the test passes at this cycle, fails with an error that does not report the budget,
or goes on with one cycle less. -/
theorem harnessLoop_succ_cases (codec : CharCodec) (left cycles : Nat) (t : TestCase) (s : State) :
    harnessLoop codec (left + 1) cycles t s = .ok (cycles + 1) ∨
    (∃ e, harnessLoop codec (left + 1) cycles t s = .error e ∧ e.notBudget = true) ∨
    (∃ t' s', t'.name = t.name ∧
      harnessLoop codec (left + 1) cycles t s = harnessLoop codec left (cycles + 1) t' s') := by
  obtain ⟨s', hstep⟩ := step_total s
  have hturn := answer_withinBudget codec t (cycles + 1) s'
  rw [harnessLoop, hstep]
  dsimp only
  generalize answer codec t (cycles + 1) s' = r at hturn ⊢
  match r with
  | .ok none => exact (checkConsumed_cases t (cycles + 1)).imp_right .inl
  | .ok (some (t', s'')) => exact .inr (.inr ⟨t', s'', hturn, rfl⟩)
  | .error e => exact .inr (.inl ⟨e, rfl, hturn⟩)

/-- A test passes after at least one of the cycles that are left. -/
theorem harnessLoop_ok_bounds {codec : CharCodec} {left cycles : Nat} {t : TestCase} {s : State} {n : Nat}
    (h : harnessLoop codec left cycles t s = .ok n) : cycles + 1 ≤ n ∧ n ≤ cycles + left := by
  induction left generalizing cycles t s with
  | zero => exact absurd h nofun
  | succ left ih =>
    obtain hok | ⟨e, herr, -⟩ | ⟨t', s', -, hnext⟩ := harnessLoop_succ_cases codec left cycles t s
    · obtain rfl : cycles + 1 = n := Except.ok.inj (hok.symm.trans h)
      omega
    · exact absurd (herr.symm.trans h) nofun
    · have := ih (hnext.symm.trans h)
      omega

/-- The budget is reported when every cycle that was left is spent, under the test's name. -/
theorem harnessLoop_runOutOfCycles {codec : CharCodec} {left cycles : Nat} {t : TestCase} {s : State} {name : String}
    {n : Nat} (h : harnessLoop codec left cycles t s = .error (.runOutOfCycles name n)) :
    name = t.name ∧ n = cycles + left := by
  induction left generalizing cycles t s with
  | zero =>
    cases h
    exact ⟨rfl, rfl⟩
  | succ left ih =>
    obtain hok | ⟨e, herr, hbudget⟩ | ⟨t', s', hname, hnext⟩ := harnessLoop_succ_cases codec left cycles t s
    · exact absurd (hok.symm.trans h) nofun
    · obtain rfl := Except.error.inj (herr.symm.trans h)
      exact absurd hbudget nofun
    · obtain ⟨hname', hn⟩ := ih (hnext.symm.trans h)
      exact ⟨hname'.trans hname, by omega⟩

/-- Settles O59: `runTest` is the loop with the whole budget left. -/
theorem theHarnessKeepsItsCycleBudget : Obligations.TheHarnessKeepsItsCycleBudget := by
  refine fun codec t s => ⟨fun n h => ?_, fun name n h => ?_⟩
  · simpa using harnessLoop_ok_bounds h
  · simpa using harnessLoop_runOutOfCycles h

end Sys2Proof.Machine

/-! PROOFS for 60_exceptions.md: the stop at an invalid word is precise, and a terminal state is left by a reset or a
load alone (R253, R256). -/

namespace Sys2Proof.Machine

/-! ### The stop at an invalid word -/

/-- The invalid instructions share one meaning: nothing is done but entering InvalidInstruction (R182). -/
theorem exec_of_isInvalid {i : Instr} (h : i.isInvalid = true) (s : State) : exec i s = .next s.enterInvalid := by
  cases i with
  | invalid4xx | invalid900 | invalid903 | invalid913 | invalidGated => rfl
  | hlt | ext | add | sub | sto | lda | br | brz | brp | inp | out | ina | ota => simp [Instr.isInvalid] at h

/-- Which words the controller decodes as invalid, by the flag as it reads it: the build is already part of that. -/
theorem State.isInvalid_decodeWord (s : State) (w : Word) :
    (s.decodeWord w).isInvalid = true ↔ InvalidWord s.extFlag w.val := by
  have hflag : (s.cfg.extendedBuild && s.extFlag) = s.extFlag := by rw [State.extFlag, ← Bool.and_assoc, Bool.and_self]
  rw [State.decodeWord, isInvalid_decode, hflag]

theorem step_invalid {s : State} {a : Addr} {w : Word} (h : RunningAt s a w) (hw : InvalidWord s.extFlag w.val) :
    step s = .next (s.setPc (nextPc a)).enterInvalid := by
  rw [step_of_runningAt h, exec_of_isInvalid ((s.isInvalid_decodeWord w).mpr hw)]

/-- Settles O20: the step is `step_invalid`, and the fetch has left `pc` just past the word. -/
theorem invalidStopIsPrecise : Obligations.InvalidStopIsPrecise := by
  intro s a w h hw
  have hlast : (s.setPc (nextPc a)).enterInvalid.lastWord = some (s.mem.read a) := s.lastWord_setPc_nextPc a
  exact ⟨_, step_invalid h hw, rfl, by rw [hlast, h.2.2]⟩

/-! ### Terminal states -/

/-- A block in a terminal state is in no other one. -/
theorem State.ne_of_terminal {s : State} (hs : s.state.terminal = true) {c : CtrlState} (hc : c.terminal = false) :
    s.state ≠ c := by
  rintro rfl
  exact Bool.false_ne_true (hc.symm.trans hs)

theorem after_of_terminal {s : State} (hs : s.state.terminal = true) (c : Command) :
    after c s = s ∨ c = .reset ∨ (∃ img, c = .load img) ∨ (∃ P, c = .loadBytes P) := by
  cases c with
  | reset | load | loadBytes => simp
  | readState | dump => exact .inl rfl
  | step =>
    have hstep := stepWhileNotRunningChangesNothing s (State.ne_of_terminal hs rfl)
    rw [step_eq_next_after] at hstep
    exact .inl (by injection hstep)
  | input v => exact .inl (by rw [after_input, if_neg (State.ne_of_terminal hs rfl)])
  | inputChar v => exact .inl (by rw [after_inputChar, if_neg (State.ne_of_terminal hs rfl)])
  | output => exact .inl (by rw [after_output, if_neg (State.ne_of_terminal hs rfl)])
  | outputChar => exact .inl (by rw [after_outputChar, if_neg (State.ne_of_terminal hs rfl)])

/-- Settles O49: a terminal state is neither Running nor a suspension, and those alone make a step or an I/O command
act. -/
theorem terminalStatesAreAbsorbing : Obligations.TerminalStatesAreAbsorbing := by
  intro s hs
  have hne {c : CtrlState} (hc : c.terminal = false) : s.state ≠ c := State.ne_of_terminal hs hc
  exact ⟨stepWhileNotRunningChangesNothing s (hne rfl), runs_iff_of_not_running (hne rfl),
    fun v => ⟨input_of_ne (hne rfl) v, inputChar_of_ne (hne rfl) v⟩, output_of_ne (hne rfl), outputChar_of_ne (hne rfl),
    fun c hafter => (after_of_terminal hs c).resolve_left hafter, rfl, fun _ => rfl⟩

end Sys2Proof.Machine

/-! PROOFS for 70_reset_and_hazards.md: the registers after reset, and the invariant in every state that a host can reach
(R270, R272, R273, R276). -/

namespace Sys2Proof.Machine

/-- With the registers at their reset values a canonical memory is all that the invariant asks. -/
theorem State.inv_atReset {m : Memory} (hm : m.wf = true) (cfg : Config) : (State.atReset cfg m).Inv :=
  ⟨hm, fun hext => absurd hext Bool.false_ne_true, rfl⟩

/-- Settles O46: `reset` is the state that the statement writes out. -/
theorem resetClearsTheRegistersAndKeepsMemory : Obligations.ResetClearsTheRegistersAndKeepsMemory :=
  fun _ => rfl

/-- Settles O36, by `State.inv_atReset`: memory lists nothing. -/
theorem resetMeetsTheInvariant : Obligations.ResetMeetsTheInvariant :=
  ⟨State.inv_atReset State.reset_mem_wf _, rfl, rfl, rfl, rfl, rfl⟩

theorem after_keeps_mem_wf {s : State} (hwf : s.mem.wf = true) (c : Command) : (after c s).mem.wf = true := by
  obtain hmem | rfl | ⟨img, rfl⟩ | ⟨P, rfl⟩ := after_mem_cases c s
  · rwa [hmem]
  · exact step_keeps_mem_wf hwf (step_eq_next_after s)
  · exact Memory.wf_ofImage img
  · rw [after_loadBytes]
    split
    · exact Memory.wf_ofImage _
    · exact hwf

/-- Every command keeps the invariant: one that is no step leaves the block as it was or Running (R106). -/
theorem after_keeps_inv {s : State} (hs : s.Inv) (c : Command) : (after c s).Inv := by
  have ⟨hwf, hbuild, _⟩ := hs
  have hwf' := after_keeps_mem_wf hwf c
  obtain h | h | ⟨m, h⟩ | ⟨-, v, h⟩ | ⟨-, h⟩ := after_control_cases c s
  · rwa [h]
  · exact everyStepKeepsTheInvariant s _ hs h
  all_goals rw [h] at hwf' ⊢
  · exact State.inv_atReset hwf' s.cfg
  · exact ⟨hwf', hbuild, State.stateExplained_of_running (State.takeInput_state s v)⟩
  · exact ⟨hwf', by simpa using hbuild, State.stateExplained_of_running (State.releaseOutput_state s)⟩

/-- Settles O38, by induction on the commands since the first load. -/
theorem everyReachableStateMeetsTheInvariant : Obligations.EveryReachableStateMeetsTheInvariant := by
  intro s h
  induction h with
  | load img s => exact State.inv_atReset (Memory.wf_ofImage img) s.cfg
  | command c s _ ih => exact after_keeps_inv ih c

end Sys2Proof.Machine

/-! PROOFS for the laws of subtraction (41_arithmetic.md section 1; the corner case of BRZ in 43_branch.md). -/

namespace Sys2Proof.Machine

theorem add_subResult_cancel (a b : Word) : add (subResult a b) b = a := by
  apply Fin.ext
  rw [add_val, subResult_val]
  omega

theorem subtract_self (a : Word) : subtract a a = (0, false) := by
  have hresult : subResult a a = 0 := Fin.ext (by rw [subResult_val]; simp)
  rw [subtract, hresult, borrow, decide_eq_false (lt_irrefl a.val)]

/-- A borrow leaves at least 1 of the 1000 that was added. -/
theorem isZero_subResult_of_borrow {a b : Word} (h : borrow a b = true) : isZero (subResult a b) = false := by
  have hlt : a.val < b.val := (borrow_iff_lt a b).mp h
  refine Bool.eq_false_iff.mpr fun hzero => ?_
  rw [isZero_iff, subResult_val] at hzero
  omega

/-- Settles O3, law by law. -/
theorem subtractionLaws : Obligations.SubtractionLaws :=
  ⟨add_subResult_cancel, subtract_self, fun _ _ => isZero_subResult_of_borrow⟩

end Sys2Proof.Machine
